-- ==== Sys2Proof/Word.lean ====
section
/-! DEFINITION. The byte, the byte sequence, the 16-byte block and the 32-byte key (00_scope.md R7, R10). -/

namespace Sys2Proof

/-- A byte, 0..255; bit 7 is its most significant bit (R10). -/
abbrev Byte := BitVec 8

/-- A byte sequence `B` with `B[0]` first; `++` is the spec's `‖` (R10). -/
abbrev Bytes := List Byte

/-- A block of `BLK` = 16 bytes, byte 0 first (R7, R119). -/
abbrev Block := { B : Bytes // B.length = 16 }

/-- An AES key of `KEY_W` = 32 bytes, byte 0 first (R7, R21). -/
abbrev Key := { B : Bytes // B.length = 32 }

end Sys2Proof
end

