-- ==== Sys2Proof/Config.lean ====
section
/-! DEFINITION. What the spec leaves open and a model takes as configuration (00_scope.md R8, R9): the
capacities, the reading `CANON`, the AES block functions and the random stream. Each open item is an opaque
constant, so that a theorem holds for every legal value of it. -/

namespace Sys2Proof

/-- The two readings of "canonical big-endian byte representation" (42_codec.md R117). -/
inductive Canon where
  | minUnsigned
  | signByte
  deriving DecidableEq, Repr, Inhabited

/-- The capacity of a space in bytes: unbounded when `more` is `none`, otherwise `least + more`. `least` is
what every legal configuration has, so that an access below it can be evaluated without knowing the rest. -/
structure Cap where
  least : Nat
  more : Option Nat
  deriving DecidableEq, Repr

/-- `n` bytes fit a space of capacity `c`. -/
def Cap.fits (c : Cap) (n : Nat) : Bool :=
  decide (n ≤ c.least) ||
    match c.more with
    | none => true
    | some m => decide (n ≤ c.least + m)

/-- How many blocks `DATA_MAX` holds beyond its least value of 256 bytes; `none` for no bound (R8, D5). -/
opaque Config.dataMore : Option Nat

/-- How many bytes `MOD_MAX` holds beyond its least value of 1; `none` for no bound (R8, D6). -/
opaque Config.modMore : Option Nat

/-- How many bytes `EXP_MAX` holds beyond its least value of 1; `none` for no bound (R8, D6). -/
opaque Config.expMore : Option Nat

/-- `DATA_MAX`: a multiple of 16, at least 256, or unbounded (R8). -/
def Config.dataMax : Cap := ⟨256, Config.dataMore.map (16 * ·)⟩

/-- `MOD_MAX`: at least 1, or unbounded (R8). -/
def Config.modMax : Cap := ⟨1, Config.modMore⟩

/-- `EXP_MAX`: at least 1, or unbounded (R8). -/
def Config.expMax : Cap := ⟨1, Config.expMore⟩

/-- `CANON`: which reading the device has; no default is chosen (R8, D12). -/
opaque Config.canonMode : Canon

/-- The AES block functions: for each key a permutation of the blocks. That is exactly what
20_memory.md R51 states of them: total, deterministic, mutually inverse. -/
opaque Config.aes : Key → Equiv.Perm Block

/-- The random-byte source as a stream (20_memory.md R57): its byte at each position, under no law (R49). -/
opaque Config.randomByte : Nat → Byte

end Sys2Proof
end

