-- ==== Sys2Proof/Machine/Codec.lean ====
section
/-! DEFINITION. The byte/block codec (42_codec.md R115 to R122): pure functions, no state. -/

namespace Sys2Proof.Machine

/-- `be2int(B)`: the big-endian unsigned value of a byte sequence (R115). -/
def be2int (B : Bytes) : Nat := B.foldl (fun acc b => 256 * acc + b.toNat) 0

/-- `bitlen(C)`: the number of bits of `C`, 0 for 0 (R116). -/
def bitlen (c : Nat) : Nat := if c = 0 then 0 else Nat.log2 c + 1

/-- `int2be(C, k)`: the big-endian encoding of `C` in `k` bytes, used with `C < pow(256, k)` (R116). -/
def int2be (c k : Nat) : Bytes := (List.range k).map fun j => BitVec.ofNat 8 (c / 256 ^ (k - 1 - j))

/-- The length of `canon(C)` under each reading (R117). -/
def canonLen : Canon → Nat → Nat
  | .minUnsigned, c => max 1 ((bitlen c + 7) / 8)
  | .signByte, c => bitlen c / 8 + 1

/-- `canon(C)`: the canonical big-endian representation (R117). -/
def canon (mode : Canon) (c : Nat) : Bytes := int2be c (canonLen mode c)

/-- `last(B, n)`: the last `n` bytes (00_scope.md R10). -/
def lastBytes (B : Bytes) (n : Nat) : Bytes := B.drop (B.length - n)

/-- `fmt256(R)`: the last 256 bytes of a longer sequence; a sequence of at most 256 bytes as it is, never
padded (R118). -/
def fmt256 (R : Bytes) : Bytes := if R.length > 256 then lastBytes R 256 else R

/-- The block of bytes `16 i` to `16 i + 15` of a sequence, in index order (R119, 20_memory.md R46). -/
def blockAt (X : Bytes) (i : Nat) : Block :=
  ⟨(List.range 16).map fun j => X.getD (16 * i + j) 0, by simp⟩

/-- `blocks(X)`: the 16-byte block view, used with a length that is a multiple of 16 (R119). -/
def blocks (X : Bytes) : List Block := (List.range (X.length / 16)).map (blockAt X)

/-- The concatenation of blocks in order (R119). -/
def concatBlocks (bs : List Block) : Bytes := bs.flatMap fun b => b.val

/-- `A xor B`: bytewise exclusive-or of two blocks (R120). -/
def xorBlock (a b : Block) : Block :=
  ⟨List.zipWith (fun x y => x ^^^ y) a.val b.val, by simp [a.property, b.property]⟩

end Sys2Proof.Machine
end

