-- ==== Sys2Proof/Syntax.lean ====
section
/-! DEFINITION. The commands of the block: one constructor per row of opcode_table.json (30_encoding.md R66). -/

namespace Sys2Proof

/-- The three commands. A command has no operand: operands stand in the operand spaces and length
registers when the code is written to `CMD` (R63). A reserved code is no command of this type (R67). -/
inductive Instr where
  | rsaEnc
  | igeEnc
  | igeDec
  deriving DecidableEq, Repr

end Sys2Proof
end

