-- ==== Sys2Proof/Machine/State.lean ====
section
/-! DEFINITION. The state: the record of 10_state.md R32, and around it what the model keeps of the host, the
platform and the ports (the agents of R13); the state after reset (R31); why a step can stop. -/

namespace Sys2Proof.Machine

/-- The four errors a command can end with (60_exceptions.md R123). They are outcomes of a command, recorded
in `STATUS`; none of them stops the machine. -/
inductive CmdError where
  | invalidInput
  | malformedBlockLength
  | illegalCommand
  | invalidKey
  deriving DecidableEq, Repr

/-- The six legal values of `STATUS` (10_state.md R17; 93_implementation_defined.md U15): the reset value, success,
and one value for each error. -/
inductive Status where
  | afterReset
  | success
  | failed (e : CmdError)
  deriving DecidableEq, Repr

/-- The registers of space `REG` (10_state.md R14, 30_encoding.md R65). -/
inductive Reg where
  | cmd
  | status
  | inlen
  | outlen
  | modlen
  | explen
  deriving DecidableEq, Repr

/-- The seven spaces (10_state.md R19, 30_encoding.md R65). -/
inductive Space where
  | reg
  | input
  | output
  | key
  | iv
  | modulus
  | exponent
  deriving DecidableEq, Repr

/-- The bytes of an operand space as (index, byte) cells in canonical form: indices strictly rising, no cell
holding what an unlisted index reads as. -/
abbrev Memory := List Host.Cell

/-- What an index without a cell reads as: the operand spaces are all zero at reset and after every completion
(10_state.md R28, R31). -/
def unlisted : Byte := 0

/-- The canonical form. -/
abbrev Memory.wf (m : Memory) : Prop :=
  m.Pairwise (fun x y => x.1 < y.1) ∧ ∀ c ∈ m, c.2 ≠ unlisted

/-- All operand state (10_state.md R18, R20 to R24): what a completion clears (R28). -/
structure Operands where
  inlen : Nat
  input : Memory
  modlen : Nat
  modulus : Memory
  explen : Nat
  exponent : Memory
  key : Memory
  iv : Memory
  deriving DecidableEq, Repr

/-- Every operand byte `00`, every operand length 0 (10_state.md R28, R31; 30_encoding.md R76). -/
def Operands.zero : Operands :=
  { inlen := 0, input := [], modlen := 0, modulus := [], explen := 0, exponent := [], key := [], iv := [] }

/-- One access of the host, with the numbers it uses (20_memory.md R40 to R43), or the platform's `RESET`
(70_reset_and_hazards.md R141). -/
inductive Event where
  | write (space index : Nat) (b : Byte)
  | read (space index : Nat)
  | writeReg (r v : Nat)
  | readReg (r : Nat)
  | reset
  deriving DecidableEq, Repr

/-- What a read returns to the host: a byte of a space (R41) or the value of a register (R43). -/
inductive Reply where
  | byte (b : Byte)
  | value (v : Nat)
  deriving DecidableEq, Repr

/-- A request of the engine to one of its ports (20_memory.md R49 to R52). -/
inductive PortRequest where
  | rng (n : Nat)
  | modexp (b e m : Nat)
  | aesEnc (k : Key) (x : Block)
  | aesDec (k : Key) (y : Block)
  deriving DecidableEq, Repr

/-- The machine. `status`, `operands` and `out` are the block's whole state (R32; `OUTLEN` is the length of
`out`). The other fields are the model's: the accesses the host has still to make (R54, R154), the values its
reads returned, the random source's next bytes (injected ones first, then the opaque stream from
`rngCursor`: R49, R57), the port requests made (R52) and the errors raised (R135), both oldest first. -/
structure State where
  status : Status
  operands : Operands
  out : Bytes
  pending : List Event
  replies : List Reply
  injected : Bytes
  rngCursor : Nat
  requests : List PortRequest
  errors : List CmdError
  deriving DecidableEq, Repr

/-- The machine right after reset (10_state.md R31): `STATUS` 0x00, operands all zero, `OUT` empty; the model's
own fields empty (DESIGN CHOICE, safe, log entries 1 to 5). -/
def State.reset : State :=
  { status := .afterReset, operands := .zero, out := [], pending := [], replies := [], injected := [],
    rngCursor := 0, requests := [], errors := [] }

/-- Why the machine stops with a fault. No command raises one. -/
inductive Fault where
  /-- Raised by a host access to a byte index at or beyond the capacity of its space, an access the spec gives
  no meaning (20_memory.md R59). Safe: the model stops where the spec says nothing happens. -/
  | noSuchByte (space index : Nat)
  deriving DecidableEq, Repr

/-- Why a step is given no meaning. No command is refused. -/
inductive Refusal where
  /-- A command not modelled; raised by no arm, since every command has its meaning. Safe. -/
  | notModelled (mnemonic : String)
  /-- A host access names a space id other than 0..6 (20_memory.md R59). Safe. -/
  | unknownSpace (space : Nat)
  /-- A host access names a register number other than 0..5 (20_memory.md R59). Safe. -/
  | unknownRegister (r : Nat)
  /-- A host write to `INLEN`, `OUTLEN`, `MODLEN` or `EXPLEN` of a value above the register's range (10_state.md R18,
  20_memory.md R59). Safe. -/
  | lengthOutOfRange (r v : Nat)
  /-- A host write to `CMD` of a value above 255 (20_memory.md R59). Safe. -/
  | commandOutOfRange (v : Nat)
  /-- A byte access to space 0, whose contents are registers and move whole (20_memory.md R40 to R42, R48).
  Safe (log entry 14). -/
  | registerSpaceAsBytes (index : Nat)
  deriving DecidableEq, Repr

/-- The outcome of a step of this machine. -/
abbrev StepOutcome := Host.Outcome State Fault Refusal

end Sys2Proof.Machine
end

