-- ==== Sys2Proof/Machine/Flags.lean ====
section
/-! DEFINITION. The only flags: the fields of `STATUS` and its value as a word (10_state.md R17, R30;
30_encoding.md R64; 60_exceptions.md R123). -/

namespace Sys2Proof.Machine

/-- The number of an error (R123). -/
def errorCode : CmdError → Nat
  | .invalidInput => 1
  | .malformedBlockLength => 2
  | .illegalCommand => 3
  | .invalidKey => 4

/-- `DONE`: at least one command has completed since reset (R17). -/
def statusDone : Status → Bool
  | .afterReset => false
  | .success => true
  | .failed _ => true

/-- `ERR`: the most recent command ended with an error (R17). -/
def statusErr : Status → Bool
  | .afterReset => false
  | .success => false
  | .failed _ => true

/-- `CODE`: the error code of the most recent command, 0 without an error (R17). -/
def statusCode : Status → Nat
  | .afterReset => 0
  | .success => 0
  | .failed e => errorCode e

/-- The status word `STAT8`: `DONE + 2·ERR + 16·CODE`, bits 3:2 zero (R64). -/
def statusWord (st : Status) : Byte :=
  BitVec.ofNat 8 ((statusDone st).toNat + 2 * (statusErr st).toNat + 16 * statusCode st)

/-- The status a status word stands for; a word that is none of the six legal values stands for none
(93_implementation_defined.md U15). -/
def statusOfWord (w : Byte) : Option Status :=
  [Status.afterReset, .success, .failed .invalidInput, .failed .malformedBlockLength,
    .failed .illegalCommand, .failed .invalidKey].find? fun st => statusWord st == w

end Sys2Proof.Machine
end

