-- ==== Sys2Proof/Machine/Ops.lean ====
section
/-! DEFINITION. The named operations: operand memory, the updates of the state, and the two completions of a
command (30_encoding.md R76), of which the error completion is the spec's `raise` (60_exceptions.md R126). -/

namespace Sys2Proof.Machine

/-- The byte at an index of an operand space. -/
def memRead : Memory → Nat → Byte
  | [], _ => unlisted
  | (k, b) :: m, a => if k = a then b else memRead m a

/-- Store one byte, keeping the canonical form: storing what an unlisted index reads as removes the cell. -/
def memWrite : Memory → Nat → Byte → Memory
  | [], a, b => if b = unlisted then [] else [(a, b)]
  | (k, c) :: m, a, b =>
    if a < k then (if b = unlisted then (k, c) :: m else (a, b) :: (k, c) :: m)
    else if a = k then (if b = unlisted then m else (a, b) :: m)
    else (k, c) :: memWrite m a b

/-- `MemRead(S, i, n)`: the sequence `S[i..i+n)` (20_memory.md R44). -/
def memSeq (m : Memory) (i n : Nat) : Bytes := (List.range n).map fun k => memRead m (i + k)

/-- The accesses still to be made. -/
def State.withPending (s : State) (es : List Event) : State := { s with pending := es }

/-- The operand state. -/
def State.withOperands (s : State) (o : Operands) : State := { s with operands := o }

/-- A value returned to the host. -/
def State.withReply (s : State) (r : Reply) : State := { s with replies := s.replies ++ [r] }

/-- Requests made to the ports, in order (20_memory.md R52, R55). -/
def State.withRequests (s : State) (rs : List PortRequest) : State :=
  { s with requests := s.requests ++ rs }

/-- The random source after it has returned `n` bytes: the injected bytes first, then the stream
(20_memory.md R57). -/
def State.afterDraw (s : State) (n : Nat) : State :=
  { s with injected := s.injected.drop n, rngCursor := s.rngCursor + (n - s.injected.length) }

/-- Successful completion with result `B`: `MemWrite(OUT, B)` (20_memory.md R45), `STATUS` success, operands
cleared (30_encoding.md R76, 10_state.md R28). -/
def State.succeed (s : State) (B : Bytes) : State :=
  { s with status := .success, operands := .zero, out := B }

/-- `raise <Error>`: the error completion. `STATUS` takes the error, `OUT` is untouched, the operands are
cleared, no state is saved and control goes nowhere (60_exceptions.md R126, 30_encoding.md R76). The error is
also noted in the model's record (R135). There is no return from it (R128). -/
def State.fail (s : State) (e : CmdError) : State :=
  { s with status := .failed e, operands := .zero, errors := s.errors ++ [e] }

/-- `RESET`: the block's state takes its reset values (70_reset_and_hazards.md R141); the host's further
accesses, the ports and the model's records are not the block's state (log entry 19). -/
def State.platformReset (s : State) : State :=
  { s with status := .afterReset, operands := .zero, out := [] }

end Sys2Proof.Machine
end

