-- ==== Sys2Proof/Machine/Operands.lean ====
section
/-! DEFINITION. The operands: how a command assembles them from spaces and length registers (30_encoding.md
R68, R71; 10_state.md R20 to R24), and the numbers, capacities and contents of spaces and registers
(30_encoding.md R65, 10_state.md R18, R19). -/

namespace Sys2Proof.Machine

/-- The space with an identifier 0..6 (R65). -/
def spaceOfId : Nat → Option Space
  | 0 => some .reg
  | 1 => some .input
  | 2 => some .output
  | 3 => some .key
  | 4 => some .iv
  | 5 => some .modulus
  | 6 => some .exponent
  | _ => none

/-- The register with a number 0..5 (R65). -/
def regOfNumber : Nat → Option Reg
  | 0 => some .cmd
  | 1 => some .status
  | 2 => some .inlen
  | 3 => some .outlen
  | 4 => some .modlen
  | 5 => some .explen
  | _ => none

/-- The identifier of a space (R65). -/
def spaceId : Space → Nat
  | .reg => 0
  | .input => 1
  | .output => 2
  | .key => 3
  | .iv => 4
  | .modulus => 5
  | .exponent => 6

/-- The number of a register (R65). -/
def regNumber : Reg → Nat
  | .cmd => 0
  | .status => 1
  | .inlen => 2
  | .outlen => 3
  | .modlen => 4
  | .explen => 5

/-- The capacity of a space in bytes; the register space has no bytes (R19). -/
def spaceCapacity : Space → Cap
  | .reg => ⟨0, some 0⟩
  | .input => Config.dataMax
  | .output => Config.dataMax
  | .key => ⟨32, some 0⟩
  | .iv => ⟨32, some 0⟩
  | .modulus => Config.modMax
  | .exponent => Config.expMax

/-- The cells of an operand space; the register space and `OUT` are no operand spaces. -/
def Operands.space (o : Operands) : Space → Memory
  | .reg => []
  | .input => o.input
  | .output => []
  | .key => o.key
  | .iv => o.iv
  | .modulus => o.modulus
  | .exponent => o.exponent

/-- Store a byte in an operand space; nothing for a space that is none. -/
def Operands.store (o : Operands) (S : Space) (i : Nat) (b : Byte) : Operands :=
  match S with
  | .reg => o
  | .input => { o with input := memWrite o.input i b }
  | .output => o
  | .key => { o with key := memWrite o.key i b }
  | .iv => { o with iv := memWrite o.iv i b }
  | .modulus => { o with modulus := memWrite o.modulus i b }
  | .exponent => { o with exponent := memWrite o.exponent i b }

/-- The input sequence `MemRead(IN, 0, INLEN)` (R20). -/
def Operands.inputSeq (o : Operands) : Bytes := memSeq o.input 0 o.inlen

/-- The modulus `N`: the first `MODLEN` bytes of `MOD`, most significant first (R23, R71). -/
def Operands.modulusN (o : Operands) : Nat := be2int (memSeq o.modulus 0 o.modlen)

/-- The public exponent `E`: the first `EXPLEN` bytes of `EXP`, most significant first (R24, R71). -/
def Operands.exponentE (o : Operands) : Nat := be2int (memSeq o.exponent 0 o.explen)

/-- The key `K`: the whole of `KEY[0..32)` (R21). -/
def Operands.keyK (o : Operands) : Key := ⟨memSeq o.key 0 32, by simp [memSeq]⟩

/-- `iv_cipher0` = `IV[0..16)`, the initial previous cipher block `C_0` (R22). -/
def Operands.ivCipher0 (o : Operands) : Block := ⟨memSeq o.iv 0 16, by simp [memSeq]⟩

/-- `iv_plain0` = `IV[16..32)`, the initial previous plain block `P_0` (R22). -/
def Operands.ivPlain0 (o : Operands) : Block := ⟨memSeq o.iv 16 16, by simp [memSeq]⟩

/-- The value a register reads as; `CMD` stores nothing and reads 0 (R16 to R18, 20_memory.md R43). -/
def State.regValue (s : State) : Reg → Nat
  | .cmd => 0
  | .status => (statusWord s.status).toNat
  | .inlen => s.operands.inlen
  | .outlen => s.out.length
  | .modlen => s.operands.modlen
  | .explen => s.operands.explen

/-- The byte a space reads as for the host: `OUT[i]` below `OUTLEN` and 0 above it; 0 for the operand spaces,
which are write-only (20_memory.md R41). -/
def State.spaceByte (s : State) (S : Space) (i : Nat) : Byte :=
  match S with
  | .output => s.out.getD i 0
  | .reg => 0
  | .input => 0
  | .key => 0
  | .iv => 0
  | .modulus => 0
  | .exponent => 0

end Sys2Proof.Machine
end

