-- ==== Sys2Proof/Machine/Ports.lean ====
section
/-! DEFINITION. The capability ports (20_memory.md R49 to R52, R57) and the padding with random bytes both
encryptors use (40_rsa_encrypt.md R84, 41_aes_ige.md R97). -/

namespace Sys2Proof.Machine

/-- The byte the random source returns `k` bytes from now: the injected ones first, then a FREE VALUE, the
opaque stream at its cursor (R49, R57; log entry 3). -/
def State.rngByte (s : State) (k : Nat) : Byte :=
  match s.injected[k]? with
  | some b => b
  | none => Config.randomByte (s.rngCursor + (k - s.injected.length))

/-- The sequence `RNG(n)` returns (R49). -/
def State.draw (s : State) (n : Nat) : Bytes := (List.range n).map s.rngByte

/-- `INPUT ‖ RNG(n)`: the input sequence with `n` random bytes appended in the order returned (R57). -/
def State.padded (s : State) (n : Nat) : Bytes := s.operands.inputSeq ++ s.draw n

/-- The state after that padding: one request `RNG(n)`, and none for `n` = 0 (R49, R52). -/
def State.afterPad (s : State) (n : Nat) : State :=
  if n = 0 then s else (s.afterDraw n).withRequests [.rng n]

/-- `MODEXP(b, e, m)` = `pow(b, e) mod m`, asked only with `m ≥ 1` (R50, 42_codec.md R121). -/
def modexp (b e m : Nat) : Nat := b ^ e % m

/-- `AESENC(k, x)` (R51). -/
def aesEnc (k : Key) (x : Block) : Block := Config.aes k x

/-- `AESDEC(k, y)`, the inverse of `AESENC(k, ·)` (R51). -/
def aesDec (k : Key) (y : Block) : Block := (Config.aes k).symm y

end Sys2Proof.Machine
end

