-- ==== Sys2Proof/Machine/Ige.lean ====
section
/-! DEFINITION. The AES-256-IGE cipher (41_aes_ige.md R96 to R111). The chaining is written for any block
function, so that a test can run it on a cipher it knows; the commands run it on the AES block port. -/

namespace Sys2Proof.Machine

/-- The running state of one command (10_state.md R26): `PREV_C`, `PREV_P`, the result so far `ACC`, and the
blocks given to the AES port so far. A local of the command: set from `IV`, gone at completion. -/
structure Chain where
  prevC : Block
  prevP : Block
  acc : Bytes
  queries : List Block
  deriving DecidableEq, Repr

/-- The start of every command: `PREV_C = iv_cipher0`, `PREV_P = iv_plain0`, nothing produced (R98). -/
def chainStart (c0 p0 : Block) : Chain := { prevC := c0, prevP := p0, acc := [], queries := [] }

/-- One block of encryption: `C_i = E(P_i xor C_{i-1}) xor P_{i-1}` (R99). -/
def igeEncBlock (E : Block → Block) (c : Chain) (p : Block) : Chain :=
  let t := xorBlock p c.prevC
  let ci := xorBlock (E t) c.prevP
  { prevC := ci, prevP := p, acc := c.acc ++ ci.val, queries := c.queries ++ [t] }

/-- One block of decryption: `P_i = D(C_i xor P_{i-1}) xor C_{i-1}` (R103). -/
def igeDecBlock (D : Block → Block) (c : Chain) (ci : Block) : Chain :=
  let t := xorBlock ci c.prevP
  let p := xorBlock (D t) c.prevC
  { prevC := ci, prevP := p, acc := c.acc ++ p.val, queries := c.queries ++ [t] }

/-- Encryption of a block-aligned sequence, blocks 1..n in order (R96, R99, R110). -/
def igeEncrypt (E : Block → Block) (c0 p0 : Block) (X : Bytes) : Chain :=
  (blocks X).foldl (igeEncBlock E) (chainStart c0 p0)

/-- Decryption of a block-aligned sequence, blocks 1..n in order (R101, R103, R110). -/
def igeDecrypt (D : Block → Block) (c0 p0 : Block) (X : Bytes) : Chain :=
  (blocks X).foldl (igeDecBlock D) (chainStart c0 p0)

/-- How many random bytes complete `L` bytes to a multiple of 16; none when `L` is one (R97). -/
def igePadLen (L : Nat) : Nat := if L % 16 = 0 then 0 else 16 - L % 16

/-- `IGE_ENC` (R96): it always succeeds. One `RNG` request when the length is unaligned, then one `AESENC`
request for each block in order (20_memory.md R52). -/
def execIgeEnc (s : State) : StepOutcome :=
  let n := igePadLen s.operands.inlen
  let K := s.operands.keyK
  let c := igeEncrypt (aesEnc K) s.operands.ivCipher0 s.operands.ivPlain0 (s.padded n)
  .next (((s.afterPad n).withRequests (c.queries.map (PortRequest.aesEnc K))).succeed c.acc)

/-- `IGE_DEC` (R101): an unaligned length is an error before any request (R102, 90_conflicts.md C4); otherwise
one `AESDEC` request for each block in order, and nothing is stripped (R104). -/
def execIgeDec (s : State) : StepOutcome :=
  let K := s.operands.keyK
  if s.operands.inlen % 16 ≠ 0 then .next (s.fail .malformedBlockLength)
  else
    let c := igeDecrypt (aesDec K) s.operands.ivCipher0 s.operands.ivPlain0 s.operands.inputSeq
    .next ((s.withRequests (c.queries.map (PortRequest.aesDec K))).succeed c.acc)

end Sys2Proof.Machine
end

