-- ==== Sys2Proof/Machine/Rsa.lean ====
section
/-! DEFINITION. The RSA encryptor (40_rsa_encrypt.md R81 to R92). The padding is the source's own, random bytes
on the right; it is not PKCS#1 v1.5 (00_scope.md R3, 90_conflicts.md C1). -/

namespace Sys2Proof.Machine

/-- How many random bytes complete an accepted plaintext of `L` bytes to 255 (R84; C2: 255, not 256). -/
def rsaPadLen (L : Nat) : Nat := 255 - L

/-- The result bytes for a padded buffer: `fmt256(canon(pow(be2int(MBUF), E) mod N))` (R85 to R87). -/
def rsaResult (mode : Canon) (mbuf : Bytes) (E N : Nat) : Bytes :=
  fmt256 (canon mode (modexp (be2int mbuf) E N))

/-- `RSA_ENC` (R81): the length check, then the modulus check, both before any port request (R82, R83,
60_exceptions.md R125); then one `RNG` request when bytes are missing, one `MODEXP` request, and the result. -/
def execRsaEnc (s : State) : StepOutcome :=
  let L := s.operands.inlen
  let N := s.operands.modulusN
  let E := s.operands.exponentE
  if L = 0 ∨ L > 255 then .next (s.fail .invalidInput)
  else if N = 0 then .next (s.fail .invalidKey)
  else
    let mbuf := s.padded (rsaPadLen L)
    .next (((s.afterPad (rsaPadLen L)).withRequests [.modexp (be2int mbuf) E N]).succeed
      (rsaResult Config.canonMode mbuf E N))

end Sys2Proof.Machine
end

