-- ==== Sys2Proof/Machine/Dispatch.lean ====
section
/-! DEFINITION. The meaning of each command: one arm per constructor (30_encoding.md R75). -/

namespace Sys2Proof.Machine

def exec (i : Instr) (s : State) : Host.Outcome State Fault Refusal :=
  match i with
  | .rsaEnc => Sys2Proof.Machine.execRsaEnc s
  | .igeEnc => Sys2Proof.Machine.execIgeEnc s
  | .igeDec => Sys2Proof.Machine.execIgeDec s

end Sys2Proof.Machine
end

