-- ==== Sys2Proof/WellFormed.lean ====
section
/-! DEFINITION. What is well formed: a command word is a value 0..255 (20_memory.md R59); a command itself has
no field that could be out of range (30_encoding.md R63). -/

namespace Sys2Proof

/-- A command has no operand field, so each of the three is well formed (R63). -/
def Instr.wellFormed : Instr → Bool
  | .rsaEnc => true
  | .igeEnc => true
  | .igeDec => true

/-- A value the host may write to `CMD`: 0..255 (R42, R59). -/
def commandWordOk (v : Nat) : Bool := decide (v < 256)

end Sys2Proof
end

