-- ==== Sys2Proof/Decode.lean ====
section
/-! DEFINITION. The opcode map: the decoder, total on all 256 codes, and the encoder (30_encoding.md R63, R66,
R67, R72). -/

namespace Sys2Proof

/-- A row of the opcode table: a code `v` is the row's command when `v &&& mask = pattern`. -/
structure OpcodeRow where
  mask : Byte
  pattern : Byte
  command : Instr
  deriving DecidableEq, Repr

/-- What a command code decodes to: a command, or the reserved code itself (R67). -/
inductive Decoded where
  | command (i : Instr)
  | illegal (code : Byte)
  deriving DecidableEq, Repr

/-- The three rows of R66: the whole byte is compared. -/
def opcodeTable : List OpcodeRow :=
  [⟨0xFF, 0x01, .rsaEnc⟩, ⟨0xFF, 0x02, .igeEnc⟩, ⟨0xFF, 0x03, .igeDec⟩]

/-- The row applies to the code. -/
def rowMatches (v : Byte) (r : OpcodeRow) : Bool := v &&& r.mask == r.pattern

/-- Decode a command code: the command of the table's row, every other code is illegal (R66, R67, R75). -/
def decode (v : Byte) : Decoded :=
  match opcodeTable.find? (rowMatches v) with
  | some r => .command r.command
  | none => .illegal v

/-- The code of a command (R66). -/
def encode : Instr → Byte
  | .rsaEnc => 0x01
  | .igeEnc => 0x02
  | .igeDec => 0x03

/-- The one byte of an instruction whose bits are `w`, of which the table gives `nbits`; the bits above
`nbits` are 0. -/
def tableByte (nbits w : Nat) : Byte := BitVec.ofNat 8 (w % 2 ^ nbits)

/-- What the decoder reads from an instruction with bits `w`; `none` where the code is reserved. -/
def decodeTableWord (nbits w : Nat) : Option Instr :=
  match decode (tableByte nbits w) with
  | .command i => some i
  | .illegal _ => none

end Sys2Proof
end

