-- ==== Sys2Proof/Machine/HostAccess.lean ====
section
/-! DEFINITION. The host's four access primitives (20_memory.md R40 to R43), the contract outside which an access
has no meaning (R59), and the issue of a command (30_encoding.md R75). -/

namespace Sys2Proof.Machine

/-- `HWrite(S, i, b)`: one byte of an operand space; no effect on `OUT` (R40). -/
def hostWrite (space i : Nat) (b : Byte) (s : State) : StepOutcome :=
  match spaceOfId space with
  | none => .refused (.unknownSpace space)
  | some .reg => .refused (.registerSpaceAsBytes i)
  | some S =>
    if (spaceCapacity S).fits (i + 1) then .next (s.withOperands (s.operands.store S i b))
    else .fault (.noSuchByte space i)

/-- `HRead(S, i)`: returns one byte and changes nothing else (R41). -/
def hostRead (space i : Nat) (s : State) : StepOutcome :=
  match spaceOfId space with
  | none => .refused (.unknownSpace space)
  | some .reg => .refused (.registerSpaceAsBytes i)
  | some S =>
    if (spaceCapacity S).fits (i + 1) then .next (s.withReply (.byte (s.spaceByte S i)))
    else .fault (.noSuchByte space i)

/-- A command is issued: the code is decoded, a command runs to its completion, a reserved code completes with
`IllegalCommand` and examines no operand (30_encoding.md R67, R75; 60_exceptions.md R125). `run` is the meaning
of a command. -/
def issueCommand (run : Instr → State → StepOutcome) (code : Byte) (s : State) : StepOutcome :=
  match decode code with
  | .command i => run i s
  | .illegal _ => .next (s.fail .illegalCommand)

/-- `HWriteReg(r, v)`: a length within its range is stored, a write to `CMD` issues a command, a write to
`STATUS` or `OUTLEN` has no effect (R42). A value above the range of a length register, `OUTLEN` among them, is
outside the contract (R59; 10_state.md R18; log entry 15). -/
def hostWriteReg (run : Instr → State → StepOutcome) (r v : Nat) (s : State) : StepOutcome :=
  match regOfNumber r with
  | none => .refused (.unknownRegister r)
  | some .cmd =>
    if commandWordOk v then issueCommand run (BitVec.ofNat 8 v) s else .refused (.commandOutOfRange v)
  | some .status => .next s
  | some .outlen =>
    if Config.dataMax.fits v then .next s else .refused (.lengthOutOfRange r v)
  | some .inlen =>
    if Config.dataMax.fits v then .next (s.withOperands { s.operands with inlen := v })
    else .refused (.lengthOutOfRange r v)
  | some .modlen =>
    if Config.modMax.fits v then .next (s.withOperands { s.operands with modlen := v })
    else .refused (.lengthOutOfRange r v)
  | some .explen =>
    if Config.expMax.fits v then .next (s.withOperands { s.operands with explen := v })
    else .refused (.lengthOutOfRange r v)

/-- `HReadReg(r)`: returns the value and changes nothing else (R43). -/
def hostReadReg (r : Nat) (s : State) : StepOutcome :=
  match regOfNumber r with
  | none => .refused (.unknownRegister r)
  | some R => .next (s.withReply (.value (s.regValue R)))

/-- One access of the host, or the platform's reset, carried out whole (R54). -/
def access (run : Instr → State → StepOutcome) (e : Event) (s : State) : StepOutcome :=
  match e with
  | .write space i b => hostWrite space i b s
  | .read space i => hostRead space i s
  | .writeReg r v => hostWriteReg run r v s
  | .readReg r => hostReadReg r s
  | .reset => .next s.platformReset

end Sys2Proof.Machine
end

