-- ==== Sys2Proof/Machine/Step.lean ====
section
/-! DEFINITION. One step: the next access of the host is carried out (20_memory.md R54); with none left the block
is idle and holds its state (60_exceptions.md R134). -/

namespace Sys2Proof.Machine

/-- Take the first pending access and carry it out; a write to `CMD` runs its command to completion. -/
def step (s : State) : Host.Outcome State Fault Refusal :=
  match s.pending with
  | [] => .next s
  | e :: rest => access exec e (s.withPending rest)

/-- The state whose next access is the write to `CMD` (register 0) of the command with bits `w`: the block
fetches nothing, a command is delivered by that write (10_state.md R15, R16; log entry 1). -/
def State.withFetchWord (s : State) (nbits w : Nat) : State :=
  s.withPending (.writeReg 0 (tableByte nbits w).toNat :: s.pending)

end Sys2Proof.Machine
end

