-- ==== Sys2Proof/Machine/Script.lean ====
section
/-! DEFINITION. Host scripts: the lines and pseudo-instructions of 30_encoding.md R73 and R74 as sequences of host
accesses. A pseudo-instruction is notation, not a command. -/

namespace Sys2Proof.Machine

/-- A line of a host script (R73). `cmdCode` is a literal code; `rng` is not a host step: it states what the
random-byte port returns. -/
inductive ScriptLine where
  | wr (S : Space) (i : Nat) (B : Bytes)
  | set (r : Reg) (v : Nat)
  | cmd (i : Instr)
  | cmdCode (v : Nat)
  | rd (r : Reg)
  | rdb (i n : Nat)
  | rng (B : Bytes)
  deriving DecidableEq, Repr

/-- The accesses that write a sequence from an index on, in order. -/
def writeEvents (space i : Nat) : Bytes → List Event
  | [] => []
  | b :: B => .write space i b :: writeEvents space (i + 1) B

/-- The host's accesses a line stands for (R73). -/
def lineEvents : ScriptLine → List Event
  | .wr S i B => writeEvents (spaceId S) i B
  | .set r v => [.writeReg (regNumber r) v]
  | .cmd i => [.writeReg (regNumber .cmd) (encode i).toNat]
  | .cmdCode v => [.writeReg (regNumber .cmd) v]
  | .rd r => [.readReg (regNumber r)]
  | .rdb i n => (List.range n).map fun k => .read (spaceId .output) (i + k)
  | .rng _ => []

/-- The random bytes a line injects (R73; 20_memory.md R49). Where the line stands in its script is not kept (log
entry 26). -/
def lineInjects : ScriptLine → Bytes
  | .rng B => B
  | .wr _ _ _ => []
  | .set _ _ => []
  | .cmd _ => []
  | .cmdCode _ => []
  | .rd _ => []
  | .rdb _ _ => []

/-- A state with a script still to run, after whatever the host has still to do. DESIGN CHOICE, unsafe (log entry 26):
the bytes of all `RNG` lines are joined in order and given out from the front, so that a request without a line of its
own takes the bytes of a later line, where R73 does not say what it gets. -/
def State.withScript (s : State) (ls : List ScriptLine) : State :=
  { s with
    pending := s.pending ++ ls.flatMap lineEvents
    injected := s.injected ++ ls.flatMap lineInjects }

/-- `LDIN B` (R74). -/
def ldin (B : Bytes) : List ScriptLine := [.wr .input 0 B, .set .inlen B.length]

/-- `LDKEY K` (R74). -/
def ldkey (K : Key) : List ScriptLine := [.wr .key 0 K.val]

/-- `LDIV V`, an IV of 32 bytes (R74). -/
def ldiv (V : Key) : List ScriptLine := [.wr .iv 0 V.val]

/-- `LDMOD B` (R74). -/
def ldmod (B : Bytes) : List ScriptLine := [.wr .modulus 0 B, .set .modlen B.length]

/-- `LDEXP B` (R74). -/
def ldexp (B : Bytes) : List ScriptLine := [.wr .exponent 0 B, .set .explen B.length]

/-- `RDOUT`, `n` being the value the host has read from `OUTLEN` (R74). -/
def rdout (n : Nat) : List ScriptLine := [.rd .outlen, .rdb 0 n]

/-- `RSAENC mod, exp, msg`, with a result of `n` bytes (R74). -/
def rsaencCall (m e msg : Bytes) (n : Nat) : List ScriptLine :=
  ldmod m ++ ldexp e ++ ldin msg ++ [.cmd .rsaEnc, .rd .status] ++ rdout n

/-- `IGEENC msg, key, iv`, with a result of `n` bytes (R74). -/
def igeencCall (msg : Bytes) (K V : Key) (n : Nat) : List ScriptLine :=
  ldkey K ++ ldiv V ++ ldin msg ++ [.cmd .igeEnc, .rd .status] ++ rdout n

/-- `IGEDEC ct, key, iv`, with a result of `n` bytes (R74). -/
def igedecCall (ct : Bytes) (K V : Key) (n : Nat) : List ScriptLine :=
  ldkey K ++ ldiv V ++ ldin ct ++ [.cmd .igeDec, .rd .status] ++ rdout n

/-- The source's return value after a call: the error `STATUS` names, otherwise the output (R74, 70 R145). -/
def State.callResult (s : State) : Except CmdError Bytes :=
  match s.status with
  | .failed e => .error e
  | .afterReset => .ok s.out
  | .success => .ok s.out

end Sys2Proof.Machine
end

