-- ==== Sys2Proof/Safety.lean ====
section
/-! DEFINITION. What the state of the block always is (10_state.md R18, R19, R32): the ranges and capacities, and
the canonical form of the operand spaces; and what it is for a run to be free of errors (60_exceptions.md R135);
which accesses the host's contract admits (20_memory.md R59); what a command leaves alone. -/

namespace Sys2Proof.Machine

/-- Every cell lies below the capacity of its space. -/
abbrev Memory.within (m : Memory) (c : Cap) : Prop := ∀ x ∈ m, c.fits (x.1 + 1) = true

/-- The operand part of R32: each space canonical and within its capacity, each length within its range. -/
structure Operands.Ok (o : Operands) : Prop where
  spaces : ∀ S, (o.space S).wf ∧ (o.space S).within (spaceCapacity S)
  inlen : Config.dataMax.fits o.inlen = true
  modlen : Config.modMax.fits o.modlen = true
  explen : Config.expMax.fits o.explen = true

/-- The invariant of R32: the operands, and `|out| ≤ DATA_MAX`. -/
structure State.Ok (s : State) : Prop where
  operands : s.operands.Ok
  out : Config.dataMax.fits s.out.length = true

/-- No error has been raised so far (R135). -/
def State.errorFree (s : State) : Bool := s.errors.isEmpty

/-- A byte access (identifier of the space, index) within the contract: an operand space or `OUT`, and an index
below its capacity (20_memory.md R40, R41, R59; 10_state.md R19). -/
def byteInContract (space i : Nat) : Prop :=
  (space = 1 ∨ space = 2) ∧ Config.dataMax.fits (i + 1) = true ∨
  (space = 3 ∨ space = 4) ∧ i < 32 ∨
  space = 5 ∧ Config.modMax.fits (i + 1) = true ∨
  space = 6 ∧ Config.expMax.fits (i + 1) = true

/-- An access within the host's contract (20_memory.md R42, R43, R59; 10_state.md R18); `RESET` is the platform's.
-/
def Event.inContract : Event → Prop
  | .write space i _ => byteInContract space i
  | .read space i => byteInContract space i
  | .writeReg r v =>
    r = 0 ∧ v < 256 ∨ r = 1 ∨ (r = 2 ∨ r = 3) ∧ Config.dataMax.fits v = true ∨
    r = 4 ∧ Config.modMax.fits v = true ∨ r = 5 ∧ Config.expMax.fits v = true
  | .readReg r => r ≤ 5
  | .reset => True

/-- The access issues a command: a write to `CMD`, register 0 (10_state.md R16). -/
def Event.issues : Event → Bool
  | .write _ _ _ => false
  | .read _ _ => false
  | .writeReg r _ => r == 0
  | .readReg _ => false
  | .reset => false

/-- What every command leaves as it was beside the block's state: the host's further accesses and the replies
already given (log entries 1 and 2). -/
structure SurroundingsKept (s t : State) : Prop where
  pending : t.pending = s.pending
  replies : t.replies = s.replies

/-- No port was asked and no random byte drawn (60_exceptions.md R127; log entries 3 and 4). -/
structure PortsUntouched (s t : State) : Prop where
  requests : t.requests = s.requests
  injected : t.injected = s.injected
  rngCursor : t.rngCursor = s.rngCursor

/-- The block before block `i` of a chained sequence: a half of the IV before the first (41_aes_ige.md R98). -/
def blockBefore (start : Block) (X : Bytes) (i : Nat) : Block :=
  if i = 0 then start else blockAt X (i - 1)

/-- What the host can read of the block: `STATUS`, `OUT` and the lengths (20_memory.md R41, R43), and the
replies so far. -/
structure SameForHost (s t : State) : Prop where
  status : s.status = t.status
  out : s.out = t.out
  inlen : s.operands.inlen = t.operands.inlen
  modlen : s.operands.modlen = t.operands.modlen
  explen : s.operands.explen = t.operands.explen
  replies : s.replies = t.replies
  pending : s.pending = t.pending

/-- Every request recorded is one the engine may make: a draw of 1 to 254 bytes (20_memory.md R49, R52;
40_rsa_encrypt.md R84), a modular power of a 255-byte base under a modulus of at least 1 (R50, R85). -/
def PortRequest.legal : PortRequest → Prop
  | .rng n => 1 ≤ n ∧ n ≤ 254
  | .modexp b _ m => b < 2 ^ 2040 ∧ 1 ≤ m
  | .aesEnc _ _ => True
  | .aesDec _ _ => True

/-- `STATUS` shows an error only if the record's latest error is that one (60_exceptions.md R126, R135). -/
def State.errorRecorded (s : State) : Prop := ∀ e, s.status = .failed e → s.errors.getLast? = some e

end Sys2Proof.Machine
end

