-- ==== Sys2Proof/Certificates/Slice0/Obligations.lean ====
section
/-! DEFINITION. The statements for the provers, from the numbered rules of spec/. -/

open Sys2Proof Sys2Proof.Machine

/-! ### Encoding -/

/-- R66: the three codes, the whole byte compared: each code decodes to its command and no other byte does; with bytes
that differ from a code in one high bit (95_test_vectors.md Q-1). -/
def Obligations.CommandCodesDecode : Prop :=
  decode 0b00000001 = .command .rsaEnc ∧ decode 0b00000010 = .command .igeEnc ∧
  decode 0b00000011 = .command .igeDec ∧ decode 0b10000001 = .illegal 0x81 ∧
  decode 0b00010001 = .illegal 0x11 ∧ decode 0b01000001 = .illegal 0x41 ∧
  ∀ v : Byte, (decode v = .command .rsaEnc ↔ v = 0x01) ∧ (decode v = .command .igeEnc ↔ v = 0x02) ∧
    (decode v = .command .igeDec ↔ v = 0x03)

/-- R63, R66, R72: a code decodes to a command exactly when it is the command's code. -/
def Obligations.DecodeAndEncodeAgree : Prop :=
  ∀ (i : Instr) (v : Byte), i.wellFormed = true → (decode v = .command i ↔ v = encode i)

/-- R67: a reserved code is illegal to the decoder; issuing it completes with `IllegalCommand`, asks no port,
leaves `OUT` and consumes the operands. -/
def Obligations.ReservedCodeCompletesWithIllegalCommand : Prop :=
  ∀ (s : State) (rest : List Event) (v : Byte), s.pending = .writeReg 0 v.toNat :: rest →
    v ≠ 0x01 → v ≠ 0x02 → v ≠ 0x03 →
    decode v = .illegal v ∧
    ∃ t, step s = .next t ∧ statusWord t.status = 0x33 ∧ t.out = s.out ∧ t.operands = .zero ∧
      PortsUntouched s t ∧ t.replies = s.replies ∧ t.pending = rest

/-! ### Steps -/

/-- The step of a write to `CMD` is the meaning of the command its value decodes to, with the access taken off the
queue; `withFetchWord` places such a write. The list of accesses is the model's (log entry 1). -/
def Obligations.StepRunsTheDecodedCommand : Prop :=
  (∀ (s : State) (rest : List Event) (v : Nat) (i : Instr), s.pending = .writeReg 0 v :: rest → v < 256 →
    decode (BitVec.ofNat 8 v) = .command i → i.wellFormed = true → step s = exec i (s.withPending rest)) ∧
  ∀ (s : State) (i : Instr), step (s.withFetchWord 8 (encode i).toNat) = exec i s

/-- R54: accesses are taken one a step in the host's order, each whole before the next; with none left a step
changes nothing (R134). The list of accesses is the model's form of the host's order (log entry 1). -/
def Obligations.StepTakesTheNextAccess : Prop :=
  (∀ s t : State, step s = .next t → t.pending = s.pending.tail) ∧
  ∀ s : State, s.pending = [] → step s = .next s

/-- R59 and the rules it limits (R18, R40 to R43; what it says of byte accesses to `REG` and of writes of values
above 255 to `STATUS` is the model's reading, log entries 14 and 15): a step answers a next state exactly when no
access is left or the next access is within the host's contract; no command stops the machine. -/
def Obligations.OnlyAccessesOutsideTheContractStop : Prop :=
  ∀ s : State, (∃ t, step s = .next t) ↔ ∀ e rest, s.pending = e :: rest → e.inContract

/-! ### `RSA_ENC` -/

/-- R84, R85, R86, R87 in R81: an accepted plaintext under a non-zero modulus completes. `M` is the plaintext
above the drawn bytes, `C = pow(M, E) mod N`, the result the last 256 bytes of `canon(C)`. -/
def Obligations.RsaEncCompletes : Prop :=
  ∀ s : State, let o := s.operands
    1 ≤ o.inlen → o.inlen ≤ 255 → o.modulusN ≠ 0 →
    let r := s.draw (255 - o.inlen)
    let M := be2int o.inputSeq * 256 ^ (255 - o.inlen) + be2int r
    let C := M ^ o.exponentE % o.modulusN
    ∃ t, exec .rsaEnc s = .next t ∧ statusWord t.status = 0x01 ∧ t.operands = .zero ∧
      t.out = fmt256 (canon Config.canonMode C) ∧ 1 ≤ t.out.length ∧ t.out.length ≤ 256 ∧
      SurroundingsKept s t

/-- R82: a plaintext of length 0 or above 255 is rejected before anything else, whatever its bytes and the key; no
length from 1 to 255 is. -/
def Obligations.RsaEncChecksLengthFirst : Prop :=
  ∀ s : State,
    (s.operands.inlen = 0 ∨ 256 ≤ s.operands.inlen →
      ∃ t, exec .rsaEnc s = .next t ∧ statusWord t.status = 0x13 ∧ t.out = s.out ∧ t.operands = .zero ∧
        PortsUntouched s t ∧ SurroundingsKept s t) ∧
    (1 ≤ s.operands.inlen → s.operands.inlen ≤ 255 →
      ∃ t, exec .rsaEnc s = .next t ∧ statusWord t.status ≠ 0x13)

/-- R83: a modulus whose first `MODLEN` bytes are all zero (so also `MODLEN` = 0) ends an accepted plaintext's
command with `InvalidKey`, and no other modulus does. -/
def Obligations.RsaEncRejectsZeroModulus : Prop :=
  ∀ s : State, let o := s.operands
    1 ≤ o.inlen → o.inlen ≤ 255 →
    ((∀ j, j < o.modlen → memRead o.modulus j = 0) →
      ∃ t, exec .rsaEnc s = .next t ∧ statusWord t.status = 0x43 ∧ t.out = s.out ∧ t.operands = .zero ∧
        PortsUntouched s t ∧ SurroundingsKept s t) ∧
    ((∃ j, j < o.modlen ∧ memRead o.modulus j ≠ 0) →
      ∃ t, exec .rsaEnc s = .next t ∧ statusWord t.status = 0x01)

/-- R84: the padded buffer is 255 bytes, the plaintext first and unaltered, then the random bytes in the order the
port returned them. The source is a stream (log entry 3). -/
def Obligations.RsaPaddingLayout : Prop :=
  ∀ s : State, let o := s.operands
    o.inlen ≤ 255 →
    (s.padded (rsaPadLen o.inlen)).length = 255 ∧
    (∀ j, j < o.inlen → (s.padded (rsaPadLen o.inlen))[j]? = some (memRead o.input j)) ∧
    ∀ k, k < 255 - o.inlen → (s.padded (rsaPadLen o.inlen))[o.inlen + k]? = some (s.rngByte k)

/-- R87, R88: the output's value is `C` modulo `pow(2, 2048)`, so `C` itself for a modulus of at most 2048 bits, and
its length is the table's for the configured reading of `CANON`. The reading is log entry 8's, the encoding of the
result 0 log entry 11's. -/
def Obligations.RsaOutputValueAndLength : Prop :=
  ∀ s : State, let o := s.operands
    1 ≤ o.inlen → o.inlen ≤ 255 → o.modulusN ≠ 0 →
    let C := be2int (s.padded (255 - o.inlen)) ^ o.exponentE % o.modulusN
    ∃ t, exec .rsaEnc s = .next t ∧ be2int t.out = C % 2 ^ 2048 ∧
      (o.modulusN ≤ 2 ^ 2048 → be2int t.out = C) ∧
      (Config.canonMode = .minUnsigned → t.out.length = min 256 (max 1 ((bitlen C + 7) / 8))) ∧
      (Config.canonMode = .signByte → t.out.length = min 256 (bitlen C / 8 + 1))

/-- R91: the degenerate keys and messages. `pow(0, 0)` and the encoding of 0 are log entries 10 and 11. -/
def Obligations.RsaDegenerateOperands : Prop :=
  ∀ s : State, let o := s.operands
    1 ≤ o.inlen → o.inlen ≤ 255 →
    (o.modulusN = 1 → ∃ t, exec .rsaEnc s = .next t ∧ t.out = [0]) ∧
    (o.exponentE = 0 → 2 ≤ o.modulusN → ∃ t, exec .rsaEnc s = .next t ∧ t.out = [1]) ∧
    (1 ≤ o.exponentE → o.modulusN ≠ 0 → (∀ j, j < o.inlen → memRead o.input j = 0) →
      (∀ k, k < 255 - o.inlen → s.rngByte k = 0) → ∃ t, exec .rsaEnc s = .next t ∧ t.out = [0])

/-- R71: leading zero bytes of the modulus and of the exponent make no difference. -/
def Obligations.LeadingZerosOfTheKeyAreIgnored : Prop :=
  ∀ (s s' : State) (a b : Nat), s'.operands.inputSeq = s.operands.inputSeq →
    memSeq s'.operands.modulus 0 s'.operands.modlen =
      List.replicate a 0 ++ memSeq s.operands.modulus 0 s.operands.modlen →
    memSeq s'.operands.exponent 0 s'.operands.explen =
      List.replicate b 0 ++ memSeq s.operands.exponent 0 s.operands.explen →
    (∀ k, s'.rngByte k = s.rngByte k) → s'.out = s.out →
    ∃ t t', exec .rsaEnc s = .next t ∧ exec .rsaEnc s' = .next t' ∧ t'.status = t.status ∧ t'.out = t.out

/-! ### The codec -/

/-- R115: the big-endian value as a sum and as a recursion, its bound, and that leading zero bytes do not change
it. -/
def Obligations.BigEndianValue : Prop :=
  ∀ B : Bytes,
    be2int B = ∑ j ∈ Finset.range B.length, (B.getD j 0).toNat * 256 ^ (B.length - 1 - j) ∧
    (be2int [] = 0 ∧ ∀ b : Byte, be2int (B ++ [b]) = 256 * be2int B + b.toNat) ∧
    be2int B < 256 ^ B.length ∧ be2int (0 :: B) = be2int B

/-- R116: the fixed-width encoding is the only sequence of its length with that value; `bitlen` is the number of
bits. -/
def Obligations.FixedWidthEncodingIsUnique : Prop :=
  (∀ C k : Nat, C < 256 ^ k → (int2be C k).length = k ∧ be2int (int2be C k) = C ∧
    (∀ j, j < k → (int2be C k)[j]? = some (BitVec.ofNat 8 (C / 256 ^ (k - 1 - j) % 256))) ∧
    ∀ B : Bytes, B.length = k → be2int B = C → B = int2be C k) ∧
  bitlen 0 = 0 ∧ ∀ C, 0 < C → 2 ^ (bitlen C - 1) ≤ C ∧ C < 2 ^ bitlen C

/-- R117: both readings of the canonical encoding: exact value, the table's lengths, the one byte `00` for zero,
no leading `00` under `MIN_UNSIGNED`, a first byte below `80` under `SIGN_BYTE` with a leading `00` exactly when the
bit length is a multiple of 8; the formatted outputs differ exactly when the bit length is a positive multiple of 8
below 2048. -/
def Obligations.CanonicalEncodings : Prop :=
  ∀ C : Nat,
    (∀ m, be2int (canon m C) = C ∧ canon m 0 = [0]) ∧
    (canon .minUnsigned C).length = max 1 ((bitlen C + 7) / 8) ∧
    (canon .signByte C).length = bitlen C / 8 + 1 ∧
    (0 < C → (canon .minUnsigned C).head? ≠ some 0) ∧
    (∀ b, (canon .signByte C).head? = some b → b.toNat < 0x80) ∧
    (0 < C → ((canon .signByte C).head? = some 0 ↔ bitlen C % 8 = 0)) ∧
    (fmt256 (canon .minUnsigned C) ≠ fmt256 (canon .signByte C) ↔
      0 < bitlen C ∧ bitlen C % 8 = 0 ∧ bitlen C < 2048)

/-- R118: at most 256 bytes, the last ones; never a byte more; the value modulo `pow(2, 2048)`. -/
def Obligations.OutputFormatting : Prop :=
  ∀ R : Bytes, (fmt256 R).length = min R.length 256 ∧ fmt256 R <:+ R ∧
    (R.length ≤ 256 → fmt256 R = R) ∧ be2int (fmt256 R) = be2int R % 2 ^ 2048

/-- R119: the block view of an aligned sequence: how many blocks, byte `j` of block `i`, and that concatenation in
order is its inverse. -/
def Obligations.BlockView : Prop :=
  (∀ bs : List Block, blocks (concatBlocks bs) = bs) ∧
  ∀ X : Bytes, X.length % 16 = 0 →
    (blocks X).length = X.length / 16 ∧ concatBlocks (blocks X) = X ∧
    ∀ i j, i < X.length / 16 → j < 16 →
      (blocks X)[i]?.bind (fun b => b.val[j]?) = X[16 * i + j]?

/-- R120: bytewise, and the laws used. -/
def Obligations.BlockXorLaws : Prop :=
  ∀ a b c : Block, (∀ j, j < 16 → (xorBlock a b).val.getD j 0 = a.val.getD j 0 ^^^ b.val.getD j 0) ∧
    xorBlock a b = xorBlock b a ∧ xorBlock (xorBlock a b) c = xorBlock a (xorBlock b c) ∧
    (∀ j, j < 16 → (xorBlock a a).val[j]? = some 0) ∧ xorBlock (xorBlock a b) b = a

/-! ### `IGE_ENC` and `IGE_DEC` -/

/-- R97: the padded plaintext: a multiple of 16 long, the plaintext first, then the random bytes in order; no byte
added to an aligned one. The source is a stream (log entry 3). -/
def Obligations.IgePaddingLayout : Prop :=
  ∀ s : State, let L := s.operands.inlen
    let X := s.padded (igePadLen L)
    X.length = 16 * ((L + 15) / 16) ∧ (L % 16 = 0 → X = s.operands.inputSeq) ∧
    (∀ j, j < L → X[j]? = some (memRead s.operands.input j)) ∧
    ∀ k, L + k < X.length → X[L + k]? = some (s.rngByte k)

/-- R98, R99, R100 in R96: `IGE_ENC` always completes, and each ciphertext block is
`AESENC(K, P_i xor C_{i-1}) xor P_{i-1}`, the first with the two halves of the IV. -/
def Obligations.IgeEncCompletes : Prop :=
  ∀ s : State, let o := s.operands
    let X := s.padded (igePadLen o.inlen)
    ∃ t, exec .igeEnc s = .next t ∧ statusWord t.status = 0x01 ∧ t.operands = .zero ∧
      t.out.length = 16 * ((o.inlen + 15) / 16) ∧
      (∀ i, i < (o.inlen + 15) / 16 →
        blockAt t.out i =
          xorBlock (aesEnc o.keyK (xorBlock (blockAt X i) (blockBefore o.ivCipher0 t.out i)))
            (blockBefore o.ivPlain0 X i)) ∧
      SurroundingsKept s t

/-- R103, R104 in R101: on an aligned length `IGE_DEC` completes, each plaintext block is
`AESDEC(K, C_i xor P_{i-1}) xor C_{i-1}`, and nothing is stripped; no random byte is drawn. -/
def Obligations.IgeDecCompletes : Prop :=
  ∀ s : State, let o := s.operands
    o.inlen % 16 = 0 →
    ∃ t, exec .igeDec s = .next t ∧ statusWord t.status = 0x01 ∧ t.operands = .zero ∧
      t.out.length = o.inlen ∧
      (∀ i, i < o.inlen / 16 →
        blockAt t.out i =
          xorBlock (aesDec o.keyK (xorBlock (blockAt o.inputSeq i) (blockBefore o.ivPlain0 t.out i)))
            (blockBefore o.ivCipher0 o.inputSeq i)) ∧
      (∀ k, t.rngByte k = s.rngByte k) ∧ SurroundingsKept s t

/-- R102: an unaligned length is an error before any request, with no output for the leading whole blocks; an
aligned length, 0 included, is none. -/
def Obligations.IgeDecRejectsUnaligned : Prop :=
  ∀ s : State,
    (s.operands.inlen % 16 ≠ 0 →
      ∃ t, exec .igeDec s = .next t ∧ statusWord t.status = 0x23 ∧ t.out = s.out ∧ t.operands = .zero ∧
        PortsUntouched s t ∧ SurroundingsKept s t) ∧
    (s.operands.inlen % 16 = 0 → ∃ t, exec .igeDec s = .next t ∧ statusWord t.status = 0x01)

/-- R106, and the first half of R105: the ciphertext of a plaintext of `L` bytes has `16·ceil(L/16)` bytes;
decrypting it under the same key and IV gives the padded plaintext, the plaintext in its first `L` bytes, so the
plaintext itself when it is aligned. It rests on the inverse property of the AES port (log entry 9). -/
def Obligations.IgeRoundTrip : Prop :=
  ∀ s : State, let o := s.operands
    ∃ t, exec .igeEnc s = .next t ∧ t.out.length = 16 * ((o.inlen + 15) / 16) ∧
      ∀ u : State, u.operands.inputSeq = t.out → u.operands.keyK = o.keyK →
        u.operands.ivCipher0 = o.ivCipher0 → u.operands.ivPlain0 = o.ivPlain0 →
        ∃ w, exec .igeDec u = .next w ∧ statusWord w.status = 0x01 ∧
          w.out = s.padded (igePadLen o.inlen) ∧ w.out.take o.inlen = o.inputSeq ∧
          (o.inlen % 16 = 0 → w.out = o.inputSeq)

/-- R105, the converse: encrypting the decryption of any aligned ciphertext under the same key and IV gives the
ciphertext. It rests on the inverse property of the AES port (log entry 9). -/
def Obligations.IgeConverseRoundTrip : Prop :=
  ∀ s : State, let o := s.operands
    o.inlen % 16 = 0 →
    ∃ t, exec .igeDec s = .next t ∧
      ∀ u : State, u.operands.inputSeq = t.out → u.operands.keyK = o.keyK →
        u.operands.ivCipher0 = o.ivCipher0 → u.operands.ivPlain0 = o.ivPlain0 →
        ∃ w, exec .igeEnc u = .next w ∧ w.out = o.inputSeq

/-- R107 (a) and (b): two ciphertexts that differ only in block `i` decrypt to plaintexts equal before block `i`
and different in block `i`. -/
def Obligations.IgeErrorLocality : Prop :=
  ∀ (s s' : State) (i : Nat), s.operands.inlen % 16 = 0 → s'.operands.inlen = s.operands.inlen →
    s'.operands.keyK = s.operands.keyK → s'.operands.ivCipher0 = s.operands.ivCipher0 →
    s'.operands.ivPlain0 = s.operands.ivPlain0 → i < s.operands.inlen / 16 →
    (∀ j, j ≠ i → blockAt s'.operands.inputSeq j = blockAt s.operands.inputSeq j) →
    blockAt s'.operands.inputSeq i ≠ blockAt s.operands.inputSeq i →
    ∃ t t', exec .igeDec s = .next t ∧ exec .igeDec s' = .next t' ∧
      (∀ j, j < i → blockAt t'.out j = blockAt t.out j) ∧ blockAt t'.out i ≠ blockAt t.out i

/-- R109: under an all-zero IV the first ciphertext block is the block cipher's value on the first block. -/
def Obligations.ZeroIvFirstBlock : Prop :=
  ∀ s : State, let o := s.operands
    1 ≤ o.inlen → (∀ j, j < 32 → memRead o.iv j = 0) →
    ∃ t, exec .igeEnc s = .next t ∧
      blockAt t.out 0 = aesEnc o.keyK (blockAt (s.padded (igePadLen o.inlen)) 0)

/-- R110: before iteration `k + 1` the running pair is the previous cipher and plain block and `ACC` the first `k`
output blocks, in both commands and for every block function. -/
def Obligations.ChainingLoopInvariant : Prop :=
  ∀ (F : Block → Block) (c0 p0 : Block) (X : Bytes) (k : Nat), k ≤ X.length / 16 →
    (let c := ((blocks X).take k).foldl (igeEncBlock F) (chainStart c0 p0);
      c.prevC = blockBefore c0 (igeEncrypt F c0 p0 X).acc k ∧ c.prevP = blockBefore p0 X k ∧
      c.acc = (igeEncrypt F c0 p0 X).acc.take (16 * k) ∧ c.acc.length = 16 * k) ∧
    (let c := ((blocks X).take k).foldl (igeDecBlock F) (chainStart c0 p0);
      c.prevC = blockBefore c0 X k ∧ c.prevP = blockBefore p0 (igeDecrypt F c0 p0 X).acc k ∧
      c.acc = (igeDecrypt F c0 p0 X).acc.take (16 * k) ∧ c.acc.length = 16 * k)

/-! ### Ports -/

/-- R52: number and order of the port requests of every command, successful or not. -/
def Obligations.PortRequestsInOrder : Prop :=
  ∀ (s t : State), let o := s.operands
    let n := (o.inlen + 15) / 16
    let X := s.padded (igePadLen o.inlen)
    (exec .rsaEnc s = .next t → statusErr t.status = false →
      t.requests = s.requests ++ (if o.inlen < 255 then [.rng (255 - o.inlen)] else []) ++
        [.modexp (be2int (s.padded (255 - o.inlen))) o.exponentE o.modulusN]) ∧
    (exec .igeEnc s = .next t →
      t.requests = s.requests ++ (if o.inlen % 16 ≠ 0 then [.rng (16 - o.inlen % 16)] else []) ++
        (List.range n).map fun i => .aesEnc o.keyK (xorBlock (blockAt X i) (blockBefore o.ivCipher0 t.out i))) ∧
    (exec .igeDec s = .next t → statusErr t.status = false →
      t.requests = s.requests ++
        (List.range (o.inlen / 16)).map fun i =>
          .aesDec o.keyK (xorBlock (blockAt o.inputSeq i) (blockBefore o.ivPlain0 t.out i))) ∧
    ∀ v : Byte, issueCommand exec v s = .next t → statusErr t.status = true → t.requests = s.requests

/-- R57, for the source as the model has it, injected bytes and then an opaque stream (log entry 3): the source is a
stream; each command advances it by exactly the bytes it uses, none on an error. -/
def Obligations.RandomStreamAdvances : Prop :=
  ∀ (s t : State) (k : Nat), let L := s.operands.inlen
    (exec .rsaEnc s = .next t →
      t.rngByte k = s.rngByte ((if statusErr t.status then 0 else 255 - L) + k)) ∧
    (exec .igeEnc s = .next t →
      t.rngByte k = s.rngByte ((if L % 16 = 0 then 0 else 16 - L % 16) + k)) ∧
    (exec .igeDec s = .next t → t.rngByte k = s.rngByte k)

/-! ### Completion, errors, `STATUS` -/

/-- R28: every issued code, successful or not, clears all operand state: every operand byte reads `00` and the
three lengths are 0; so a command issued without reloading sees all-zero operands. -/
def Obligations.EveryCompletionConsumesOperands : Prop :=
  ∀ (v : Byte) (s : State), ∃ t, issueCommand exec v s = .next t ∧
    (∀ S j, memRead (t.operands.space S) j = 0) ∧ t.operands.inlen = 0 ∧ t.operands.modlen = 0 ∧
    t.operands.explen = 0 ∧
    (∃ u, exec .rsaEnc t = .next u ∧ statusWord u.status = 0x13 ∧ u.out = t.out) ∧
    (∃ u, exec .igeEnc t = .next u ∧ statusWord u.status = 0x01 ∧ u.out = [] ∧ PortsUntouched t u) ∧
    (∃ u, exec .igeDec t = .next u ∧ statusWord u.status = 0x01 ∧ u.out = [] ∧ PortsUntouched t u)

/-- R125, with the causes and codes of R123: which status a command ends with, for every code and all operands; the
first check that fails gives the error, before any port request and any write to `OUT`. -/
def Obligations.EachErrorHasItsCause : Prop :=
  ∀ (v : Byte) (s : State), let o := s.operands
    ∃ t, issueCommand exec v s = .next t ∧
    (statusWord t.status = 0x33 ↔ v ≠ 0x01 ∧ v ≠ 0x02 ∧ v ≠ 0x03) ∧
    (statusWord t.status = 0x13 ↔ v = 0x01 ∧ (o.inlen = 0 ∨ 255 < o.inlen)) ∧
    (statusWord t.status = 0x43 ↔ v = 0x01 ∧ 1 ≤ o.inlen ∧ o.inlen ≤ 255 ∧ o.modulusN = 0) ∧
    (statusWord t.status = 0x23 ↔ v = 0x03 ∧ o.inlen % 16 ≠ 0) ∧
    (statusWord t.status = 0x01 ↔
      v = 0x01 ∧ 1 ≤ o.inlen ∧ o.inlen ≤ 255 ∧ o.modulusN ≠ 0 ∨ v = 0x02 ∨ v = 0x03 ∧ o.inlen % 16 = 0) ∧
    (statusErr t.status = true → PortsUntouched s t ∧ t.out = s.out)

/-- R126, R127: a failed command leaves `STATUS` = `DONE`, `ERR` and the error's code, the operands zero, and
`OUT`, the ports and everything else as they were. (The model's record of errors is another statement.) -/
def Obligations.ErrorsArePrecise : Prop :=
  ∀ (v : Byte) (s t : State), issueCommand exec v s = .next t → statusErr t.status = true →
    (∃ e, t.status = .failed e ∧ (statusWord t.status).toNat = 3 + 16 * errorCode e) ∧
    t.operands = .zero ∧ t.out = s.out ∧ PortsUntouched s t ∧ SurroundingsKept s t

/-- R64, with the values of R17: the status word and its fields, bit 0 `DONE`, bit 1 `ERR`, bits 3:2 zero, bits 7:4
`CODE`; and the word of each status. -/
def Obligations.StatusWordLayout : Prop :=
  (statusWord .afterReset = 0x00 ∧ statusWord .success = 0x01 ∧ statusWord (.failed .invalidInput) = 0x13 ∧
    statusWord (.failed .malformedBlockLength) = 0x23 ∧ statusWord (.failed .illegalCommand) = 0x33 ∧
    statusWord (.failed .invalidKey) = 0x43) ∧
  ∀ st : Status, (statusWord st).toNat =
      (statusDone st).toNat + 2 * (statusErr st).toNat + 16 * statusCode st ∧
    (statusWord st).getLsbD 0 = statusDone st ∧ (statusWord st).getLsbD 1 = statusErr st ∧
    (statusWord st).extractLsb 3 2 = 0 ∧ ((statusWord st).extractLsb 7 4).toNat = statusCode st

/-- R17, U15: `STATUS` has exactly the six legal values, and reading one back gives the status it stands for. The
type of six values is log entry 21's. -/
def Obligations.StatusHasSixValues : Prop :=
  (∀ st : Status, statusOfWord (statusWord st) = some st) ∧
  ∀ w : Byte, (∃ st, statusWord st = w) ↔ w ∈ ([0x00, 0x01, 0x13, 0x23, 0x33, 0x43] : List Byte)

/-- R17: `DONE` is never cleared except by reset. -/
def Obligations.DoneStaysSet : Prop :=
  ∀ (s t : State) (e : Event) (rest : List Event), step s = .next t → s.pending = e :: rest → e ≠ .reset →
    (statusDone t.status = true ↔ statusDone s.status = true ∨ e.issues = true)

/-- R30: the flags are written by the completion of a command (and by reset) and by nothing else; `OUT` likewise. -/
def Obligations.OnlyCompletionsWriteStatusAndOut : Prop :=
  ∀ (s t : State) (e : Event) (rest : List Event), step s = .next t → s.pending = e :: rest →
    e.issues = false → e ≠ .reset →
    t.status = s.status ∧ t.out = s.out ∧ t.errors = s.errors ∧ PortsUntouched s t

/-- R27: what a command leaves in `STATUS` and `OUT` is a function of its code, its operands, the random bytes and
the configuration; not of `STATUS`, of `OUT` or of earlier commands. On an error `OUT` stays what it was. -/
def Obligations.OutcomeDependsOnlyOnOperandsAndDraw : Prop :=
  ∀ (v : Byte) (s s' : State), s.operands = s'.operands → (∀ k, s.rngByte k = s'.rngByte k) →
    ∃ t t', issueCommand exec v s = .next t ∧ issueCommand exec v s' = .next t' ∧ t.status = t'.status ∧
      t.operands = t'.operands ∧ (∀ k, t.rngByte k = t'.rngByte k) ∧
      (if statusErr t.status then t.out = s.out ∧ t'.out = s'.out else t.out = t'.out) ∧
      t.requests.drop s.requests.length = t'.requests.drop s'.requests.length

/-- R68, R20: a command reads nothing but its own operands: the plaintext, `N` and `E` for `RSA_ENC`, the input,
the key and the IV for the others; the bytes above a length and the operands it ignores make no difference. -/
def Obligations.CommandsReadOnlyTheirOperands : Prop :=
  ∀ s s' : State, s'.operands.inputSeq = s.operands.inputSeq → (∀ k, s'.rngByte k = s.rngByte k) →
    s'.out = s.out →
    (s'.operands.modulusN = s.operands.modulusN → s'.operands.exponentE = s.operands.exponentE →
      ∃ t t', exec .rsaEnc s = .next t ∧ exec .rsaEnc s' = .next t' ∧ t'.status = t.status ∧ t'.out = t.out) ∧
    (s'.operands.keyK = s.operands.keyK → s'.operands.ivCipher0 = s.operands.ivCipher0 →
      s'.operands.ivPlain0 = s.operands.ivPlain0 → ∀ i, i ≠ .rsaEnc →
      ∃ t t', exec i s = .next t ∧ exec i s' = .next t' ∧ t'.status = t.status ∧ t'.out = t.out)

/-! ### The host's accesses -/

/-- R40: `HWrite` stores the byte at its index of its space and changes nothing else; on `OUT` it has no effect. -/
def Obligations.HostWriteStoresOneByte : Prop :=
  ∀ (s : State) (rest : List Event) (space i : Nat) (b : Byte), s.operands.Ok →
    s.pending = .write space i b :: rest → byteInContract space i →
    ∃ t, step s = .next t ∧ t = { s with pending := rest, operands := t.operands } ∧
      (∀ S j, memRead (t.operands.space S) j =
        if spaceOfId space = some S ∧ S ≠ .output ∧ j = i then b else memRead (s.operands.space S) j) ∧
      t.operands.inlen = s.operands.inlen ∧ t.operands.modlen = s.operands.modlen ∧
      t.operands.explen = s.operands.explen ∧ (space = 2 → t.operands = s.operands)

/-- R41: `HRead` returns the byte of `OUT` below `OUTLEN`, 0 above it, and 0 from every operand space, and changes
nothing else. -/
def Obligations.HostReadReturnsOutOnly : Prop :=
  ∀ (s : State) (rest : List Event) (space i : Nat), s.pending = .read space i :: rest →
    byteInContract space i →
    ∃ b, step s = .next { s with pending := rest, replies := s.replies ++ [.byte b] } ∧
      (space = 2 → ∀ h : i < s.out.length, b = s.out[i]) ∧ (space = 2 → s.out.length ≤ i → b = 0) ∧
      (space ≠ 2 → b = 0)

/-- R42, for values within the host's contract (R59): a length within its range is stored and nothing else changes; a
value 0..255 written to `CMD` issues the command; a write to `STATUS` or `OUTLEN` has no effect. -/
def Obligations.HostWriteRegister : Prop :=
  ∀ (s : State) (rest : List Event) (r v : Nat), s.pending = .writeReg r v :: rest →
    (r = 2 → Config.dataMax.fits v = true →
      step s = .next { s with pending := rest, operands := { s.operands with inlen := v } }) ∧
    (r = 4 → Config.modMax.fits v = true →
      step s = .next { s with pending := rest, operands := { s.operands with modlen := v } }) ∧
    (r = 5 → Config.expMax.fits v = true →
      step s = .next { s with pending := rest, operands := { s.operands with explen := v } }) ∧
    (r = 0 → v < 256 → step s = issueCommand exec (BitVec.ofNat 8 v) { s with pending := rest }) ∧
    (r = 1 → v < 256 → step s = .next { s with pending := rest }) ∧
    (r = 3 → Config.dataMax.fits v = true → step s = .next { s with pending := rest })

/-- R42's clause on `STATUS` and `OUTLEN` for every value, as R59 and R18 limit it: no effect, but for a value
above the range of `OUTLEN`, which is refused. That a value above 255 written to `STATUS` is not outside the
contract is the model's reading (log entry 15). -/
def Obligations.WritesToStatusAndOutlen : Prop :=
  ∀ (s : State) (rest : List Event) (r v : Nat), s.pending = .writeReg r v :: rest →
    (r = 1 → step s = .next { s with pending := rest }) ∧
    (r = 3 → step s =
      if Config.dataMax.fits v then .next { s with pending := rest } else .refused (.lengthOutOfRange 3 v))

/-- R43: `HReadReg` returns the register's value, 0 for `CMD`, and changes nothing else. -/
def Obligations.HostReadRegister : Prop :=
  ∀ (s : State) (rest : List Event) (r : Nat), s.pending = .readReg r :: rest → r ≤ 5 →
    step s = .next { s with
      pending := rest
      replies := s.replies ++ [.value ([0, (statusWord s.status).toNat, s.operands.inlen, s.out.length,
        s.operands.modlen, s.operands.explen].getD r 0)] }

/-- R74, `LDIN` (with R40, R42, R73): carrying out its accesses makes the loaded bytes the input sequence, leaves
the other spaces and lengths, and goes on with what stood behind it. The list of accesses is the model's (log entry
1). -/
def Obligations.LoadedInputIsTheInputSequence : Prop :=
  ∀ (s : State) (B : Bytes) (rest : List Event), s.operands.Ok → Config.dataMax.fits B.length = true →
    s.pending = (ldin B).flatMap lineEvents ++ rest →
    ∃ t, Sys2Proof.core.run (B.length + 1) s = .next t ∧ t.pending = rest ∧ t.operands.inputSeq = B ∧
      (∀ S, S ≠ .input → t.operands.space S = s.operands.space S) ∧ t.operands.modlen = s.operands.modlen ∧
      t.operands.explen = s.operands.explen ∧ t.out = s.out ∧ t.status = s.status

/-- R19, R41: without a command the host learns nothing of the operand bytes: two states that look the same to
the host still do after any access that issues no command. -/
def Obligations.AccessesRevealNoOperandByte : Prop :=
  ∀ (s s' t : State) (e : Event) (rest : List Event), SameForHost s s' → s.pending = e :: rest →
    e.issues = false → step s = .next t → ∃ t', step s' = .next t' ∧ SameForHost t t'

/-- R8: `DATA_MAX` is unbounded or a multiple of 16 that is at least 256; `MOD_MAX` and `EXP_MAX` are unbounded or
at least 1. They are opaque constants (log entry 7). -/
def Obligations.CapacitiesAreLegal : Prop :=
  (∃ c : Option Nat, (∀ k, c = some k → 16 ∣ k ∧ 256 ≤ k) ∧
    ∀ n, Config.dataMax.fits n = true ↔ ∀ k, c = some k → n ≤ k) ∧
  (∃ c : Option Nat, (∀ k, c = some k → 1 ≤ k) ∧ ∀ n, Config.modMax.fits n = true ↔ ∀ k, c = some k → n ≤ k) ∧
  ∃ c : Option Nat, (∀ k, c = some k → 1 ≤ k) ∧ ∀ n, Config.expMax.fits n = true ↔ ∀ k, c = some k → n ≤ k

/-! ### Reset and invariants -/

/-- R31: after reset `STATUS` is `0x00`, every register reads 0, every byte of every operand space is `00`, `OUT` is
empty. The hidden working values are locals (log entry 6). -/
def Obligations.ResetValues : Prop :=
  statusWord State.reset.status = 0x00 ∧ (∀ R, State.reset.regValue R = 0) ∧
  (∀ S j, memRead (State.reset.operands.space S) j = 0) ∧ State.reset.out = [] ∧
  ∀ S j, State.reset.spaceByte S j = 0

/-- R141: `RESET` puts the block's state to its reset values, whatever it was. That the host's further accesses,
the ports and the records stay is the model's choice (log entry 19). -/
def Obligations.ResetEventRestoresResetState : Prop :=
  ∀ (s : State) (rest : List Event), s.pending = .reset :: rest →
    ∃ t, step s = .next t ∧ t.status = State.reset.status ∧ t.operands = State.reset.operands ∧
      t.out = State.reset.out ∧ t.pending = rest ∧ t.replies = s.replies ∧ PortsUntouched s t ∧
      t.errors = s.errors

/-- R142: after a reset and after a completed command the next command ends alike. The reset is the model's (log
entry 19). -/
def Obligations.NextCommandAfterResetOrCompletion : Prop :=
  ∀ (v w : Byte) (s t : State), issueCommand exec v s = .next t →
    ∃ u u', issueCommand exec w t = .next u ∧ issueCommand exec w t.platformReset = .next u' ∧
      u.status = u'.status ∧ (statusErr u.status = false → u.out = u'.out)

/-- R18, R19, R32: at reset the spaces are canonical and within capacity and the lengths within range. The canonical
form is the model's (log entry 12). -/
def Obligations.ResetStateIsOk : Prop := State.reset.Ok

/-- R18, R19, R32: every step keeps the spaces canonical and within capacity, the lengths within range and the
output within `DATA_MAX`. The canonical form is the model's (log entry 12). -/
def Obligations.StepKeepsStateOk : Prop := ∀ s t : State, s.Ok → step s = .next t → t.Ok

/-- R49, R50, R85, on the model's own record of requests (log entry 4): every step keeps the record of port
requests legal: never a draw of 0 or of more than 254 bytes, never a modulus 0, never a base of more than 2040
bits. -/
def Obligations.StepKeepsPortRequestsLegal : Prop :=
  ∀ s t : State, (∀ r ∈ s.requests, r.legal) → step s = .next t → ∀ r ∈ t.requests, r.legal

/-- R126, R135, on the model's own record of errors (log entry 5): every step keeps that an error shown by
`STATUS` is the latest one recorded. -/
def Obligations.StepKeepsErrorRecorded : Prop :=
  ∀ s t : State, s.errorRecorded → step s = .next t → t.errorRecorded

/-- The two invariants on the model's own records (log entries 4 and 5) hold at reset. -/
def Obligations.RecordsAtReset : Prop :=
  State.reset.errorRecorded ∧ (∀ r ∈ State.reset.requests, r.legal) ∧ State.reset.errorFree = true

/-- R135, on the model's own record of errors (log entry 5): a command that ends with an error appends that error
to the record, a successful command and every step that issues no command leave the record as it is; so a run is
still free of errors exactly when it was before and the command ended without an error. -/
def Obligations.ErrorRecordGrowsOnErrorsOnly : Prop :=
  (∀ (v : Byte) (s t : State), issueCommand exec v s = .next t →
    (∀ e, t.status = .failed e → t.errors = s.errors ++ [e]) ∧
    (statusErr t.status = false → t.errors = s.errors) ∧
    (t.errorFree = true ↔ s.errorFree = true ∧ statusErr t.status = false)) ∧
  ∀ s t : State, step s = .next t →
    (∀ e rest, s.pending = e :: rest → e.issues = true →
      (∀ err, t.status = .failed err → t.errors = s.errors ++ [err]) ∧
      (statusErr t.status = false → t.errors = s.errors)) ∧
    ((∀ e rest, s.pending = e :: rest → e.issues = false) → t.errors = s.errors)
end

