-- ==== Sys2Proof/Laws/Codec.lean ====
section
/-! SUPPORT. The codec: the value of a concatenation, the widths, the block view, exclusive-or, and a fast way to
evaluate a modular power. -/

namespace Sys2Proof.Machine

@[simp] theorem be2int_nil : be2int [] = 0 := rfl

theorem be2int_snoc (B : Bytes) (b : Byte) : be2int (B ++ [b]) = 256 * be2int B + b.toNat := by
  simp [be2int]

/-- The first part of a sequence stands above the second. -/
theorem be2int_append (A B : Bytes) : be2int (A ++ B) = be2int A * 256 ^ B.length + be2int B := by
  induction B using List.reverseRecOn with
  | nil => simp
  | append_singleton B b ih =>
    rw [← List.append_assoc, be2int_snoc, be2int_snoc, ih]
    simp only [List.length_append, List.length_singleton, pow_succ]
    ring

theorem be2int_cons (b : Byte) (B : Bytes) : be2int (b :: B) = b.toNat * 256 ^ B.length + be2int B := by
  have := be2int_append [b] B
  simpa [be2int] using this

theorem be2int_lt (B : Bytes) : be2int B < 256 ^ B.length := by
  induction B using List.reverseRecOn with
  | nil => simp
  | append_singleton B b ih =>
    rw [be2int_snoc, List.length_append, List.length_singleton, pow_succ]
    have := b.isLt
    omega

@[simp] theorem int2be_length (c k : Nat) : (int2be c k).length = k := by simp [int2be]

/-- The first byte of a fixed-width encoding, and the rest. -/
theorem int2be_succ (c k : Nat) : int2be c (k + 1) = BitVec.ofNat 8 (c / 256 ^ k) :: int2be c k := by
  simp only [int2be, List.range_succ_eq_map, List.map_cons, List.map_map]
  congr 1
  apply List.map_congr_left
  intro j _
  simp only [Function.comp]
  congr 3
  omega

/-- A fixed-width encoding holds the number modulo its width. -/
theorem be2int_int2be_mod (c k : Nat) : be2int (int2be c k) = c % 256 ^ k := by
  induction k with
  | zero => simp [int2be, Nat.mod_one]
  | succ k ih =>
    rw [int2be_succ, be2int_cons, ih, int2be_length, BitVec.toNat_ofNat, pow_succ 256 k, Nat.mod_mul]
    ring

@[simp] theorem canon_length (m : Canon) (c : Nat) : (canon m c).length = canonLen m c := by simp [canon]

theorem fmt256_length (R : Bytes) : (fmt256 R).length = min R.length 256 := by
  unfold fmt256 lastBytes
  split
  · simp; omega
  · omega

theorem canonLen_pos (m : Canon) (c : Nat) : 1 ≤ canonLen m c := by
  cases m <;> simp [canonLen]

@[simp] theorem xorBlock_val (a b : Block) :
    (xorBlock a b).val = List.zipWith (fun x y => x ^^^ y) a.val b.val := rfl

theorem zipWith_xor_cancel (a b : Bytes) (h : a.length = b.length) :
    List.zipWith (fun x y => x ^^^ y) (List.zipWith (fun x y => x ^^^ y) a b) b = a := by
  induction a generalizing b with
  | nil => simp
  | cons x a ih =>
    cases b with
    | nil => simp at h
    | cons y b => simp [ih b (by simpa using h)]

/-- `(A xor B) xor B = A` (R120). -/
@[simp] theorem xorBlock_cancel (a b : Block) : xorBlock (xorBlock a b) b = a :=
  Subtype.ext (zipWith_xor_cancel a.val b.val (by rw [a.property, b.property]))

@[simp] theorem blocks_length (X : Bytes) : (blocks X).length = X.length / 16 := by simp [blocks]

@[simp] theorem blocks_getElem (X : Bytes) (i : Nat) (h : i < (blocks X).length) :
    (blocks X)[i] = blockAt X i := by simp [blocks]

theorem blockAt_val_eq (X : Bytes) (i : Nat) :
    (blockAt X i).val = (List.range 16).map fun j => X.getD (16 * i + j) 0 := rfl

theorem blockAt_append_left {A : Bytes} (B : Bytes) {i : Nat} (h : 16 * (i + 1) ≤ A.length) :
    blockAt (A ++ B) i = blockAt A i := by
  apply Subtype.ext
  rw [blockAt_val_eq, blockAt_val_eq]
  apply List.map_congr_left
  intro j hj
  have := List.mem_range.1 hj
  rw [List.getD_append _ _ _ _ (by omega)]

theorem blockAt_append_right (A B : Bytes) {i n : Nat} (h : A.length = 16 * n) :
    blockAt (A ++ B) (n + i) = blockAt B i := by
  apply Subtype.ext
  rw [blockAt_val_eq, blockAt_val_eq]
  apply List.map_congr_left
  intro j hj
  rw [List.getD_append_right _ _ _ _ (by omega)]
  congr 1
  omega

/-- A sequence of one block is that block. -/
theorem blockAt_val (b : Block) : blockAt b.val 0 = b := by
  apply Subtype.ext
  apply List.ext_getElem
  · simp [blockAt, b.property]
  · intro j h1 h2
    simp only [blockAt, List.getElem_map, List.getElem_range]
    rw [List.getD_eq_getElem _ _ (by omega)]
    congr 1
    omega

/-- The block view of a sequence that starts with a block. -/
theorem blocks_append (b : Block) (Y : Bytes) : blocks (b.val ++ Y) = b :: blocks Y := by
  apply List.ext_getElem
  · simp [b.property]
  · intro i h1 h2
    rw [blocks_getElem]
    cases i with
    | zero => rw [blockAt_append_left Y (by simp [b.property]), blockAt_val]; rfl
    | succ i =>
      rw [List.getElem_cons_succ, blocks_getElem, Nat.add_comm i 1,
        blockAt_append_right _ _ (by simp [b.property])]

theorem concatBlocks_cons (b : Block) (bs : List Block) :
    concatBlocks (b :: bs) = b.val ++ concatBlocks bs := rfl

theorem concatBlocks_append (as bs : List Block) :
    concatBlocks (as ++ bs) = concatBlocks as ++ concatBlocks bs := by simp [concatBlocks]

@[simp] theorem concatBlocks_length (bs : List Block) : (concatBlocks bs).length = 16 * bs.length := by
  induction bs with
  | nil => rfl
  | cons b bs ih => rw [concatBlocks_cons, List.length_append, b.property, ih, List.length_cons]; omega

/-- The block view of a concatenation gives the blocks back. -/
@[simp] theorem blocks_concatBlocks (bs : List Block) : blocks (concatBlocks bs) = bs := by
  induction bs with
  | nil => rfl
  | cons b bs ih => rw [concatBlocks_cons, blocks_append, ih]

/-- Block `i` of a concatenation is the `i`-th block. -/
theorem blockAt_concatBlocks (bs : List Block) (i : Nat) (h : i < bs.length) :
    blockAt (concatBlocks bs) i = bs[i] := by
  rw [← blocks_getElem _ i (by simpa using h)]
  simp

/-- A sequence of at least 16 bytes starts with a block. -/
theorem exists_block_append {X : Bytes} (h : 16 ≤ X.length) : ∃ (b : Block) (Y : Bytes), X = b.val ++ Y :=
  ⟨⟨X.take 16, by simpa using h⟩, X.drop 16, (List.take_append_drop 16 X).symm⟩

/-- The blocks of an aligned sequence, put together, are the sequence. -/
theorem concatBlocks_blocks {X : Bytes} (h : X.length % 16 = 0) : concatBlocks (blocks X) = X := by
  obtain ⟨n, hn⟩ : ∃ n, X.length = 16 * n := ⟨X.length / 16, by omega⟩
  clear h
  induction n generalizing X with
  | zero => rw [List.length_eq_zero_iff.1 (by omega : X.length = 0)]; rfl
  | succ n ih =>
    obtain ⟨b, Y, rfl⟩ := exists_block_append (X := X) (by omega)
    rw [List.length_append, b.property] at hn
    rw [blocks_append, concatBlocks_cons, ih (by omega)]

/-- Square and multiply on the exponent's bits, `fuel` of them. -/
def powModFast (m : Nat) : Nat → Nat → Nat → Nat
  | 0, _, _ => 1 % m
  | fuel + 1, b, e =>
    let r := powModFast m fuel (b * b % m) (e / 2)
    if e % 2 = 1 then b * r % m else r

/-- A modular power can be evaluated by square and multiply (the method is unobservable: R50, U10). -/
theorem powModFast_eq (m fuel b e : Nat) (h : e < 2 ^ fuel) : powModFast m fuel b e = b ^ e % m := by
  induction fuel generalizing b e with
  | zero =>
    have : e = 0 := by simpa using h
    subst this; simp [powModFast]
  | succ fuel ih =>
    have he : e / 2 < 2 ^ fuel := by rw [pow_succ] at h; omega
    simp only [powModFast, ih _ _ he]
    have hp : (b * b % m) ^ (e / 2) % m = b ^ (2 * (e / 2)) % m := by
      rw [← Nat.pow_mod, pow_mul, pow_two]
    rw [hp]
    split
    · rename_i h1
      have : e = 2 * (e / 2) + 1 := by omega
      conv_rhs => rw [this, pow_succ, Nat.mul_comm]
      rw [Nat.mul_mod, Nat.mod_mod, ← Nat.mul_mod]
    · rename_i h1
      have : e = 2 * (e / 2) := by omega
      conv_rhs => rw [this]

end Sys2Proof.Machine
end

