-- ==== Sys2Proof/Laws/Config.lean ====
section
/-! SUPPORT. The capacities: what fits a space, and that `DATA_MAX` is a legal value (00_scope.md R8). -/

namespace Sys2Proof

/-- Below its least value every capacity has room. -/
theorem Cap.fits_of_le_least {c : Cap} {n : Nat} (h : n ≤ c.least) : c.fits n = true := by
  simp [Cap.fits, h]

theorem Cap.fits_of_none {c : Cap} (h : c.more = none) (n : Nat) : c.fits n = true := by
  simp [Cap.fits, h]

theorem Cap.fits_of_some {c : Cap} {m : Nat} (h : c.more = some m) (n : Nat) :
    c.fits n = true ↔ n ≤ c.least + m := by
  simp [Cap.fits, h]; omega

/-- A smaller amount fits where a larger does. -/
theorem Cap.fits_mono {c : Cap} {n k : Nat} (hk : k ≤ n) (h : c.fits n = true) : c.fits k = true := by
  cases e : c.more with
  | none => exact Cap.fits_of_none e k
  | some m => rw [Cap.fits_of_some e] at *; omega

/-- `DATA_MAX` is a multiple of 16: a length that fits still fits when padded to whole blocks. -/
theorem dataMax_fits_padded {n : Nat} (h : Config.dataMax.fits n = true) :
    Config.dataMax.fits (16 * ((n + 15) / 16)) = true := by
  cases e : Config.dataMore with
  | none => exact Cap.fits_of_none (by simp [Config.dataMax, e]) _
  | some m =>
    have hm : Config.dataMax.more = some (16 * m) := by simp [Config.dataMax, e]
    rw [Cap.fits_of_some hm] at *
    simp only [Config.dataMax] at *
    omega

/-- `DATA_MAX` is at least 256. -/
theorem dataMax_fits_256 {n : Nat} (h : n ≤ 256) : Config.dataMax.fits n = true :=
  Cap.fits_of_le_least h

end Sys2Proof
end

