-- ==== Sys2Proof/Laws/Ige.lean ====
section
/-! SUPPORT. The IGE chaining as a recursion on the list of blocks, and that the commands' fold computes it. -/

namespace Sys2Proof.Machine

/-- The ciphertext blocks, from a previous cipher block `c` and a previous plain block `p`. -/
def encOut (E : Block → Block) : Block → Block → List Block → List Block
  | _, _, [] => []
  | c, p, x :: xs =>
    xorBlock (E (xorBlock x c)) p :: encOut E (xorBlock (E (xorBlock x c)) p) x xs

/-- The blocks given to the block cipher by that encryption. -/
def encAsked (E : Block → Block) : Block → Block → List Block → List Block
  | _, _, [] => []
  | c, p, x :: xs => xorBlock x c :: encAsked E (xorBlock (E (xorBlock x c)) p) x xs

/-- The plaintext blocks, from a previous cipher block `c` and a previous plain block `p`. -/
def decOut (D : Block → Block) : Block → Block → List Block → List Block
  | _, _, [] => []
  | c, p, y :: ys =>
    xorBlock (D (xorBlock y p)) c :: decOut D y (xorBlock (D (xorBlock y p)) c) ys

/-- The blocks given to the inverse cipher by that decryption. -/
def decAsked (D : Block → Block) : Block → Block → List Block → List Block
  | _, _, [] => []
  | c, p, y :: ys => xorBlock y p :: decAsked D y (xorBlock (D (xorBlock y p)) c) ys

variable (E D : Block → Block)

@[simp] theorem encOut_length (c p : Block) (xs : List Block) : (encOut E c p xs).length = xs.length := by
  induction xs generalizing c p with
  | nil => rfl
  | cons x xs ih => simp [encOut, ih]

@[simp] theorem encAsked_length (c p : Block) (xs : List Block) :
    (encAsked E c p xs).length = xs.length := by
  induction xs generalizing c p with
  | nil => rfl
  | cons x xs ih => simp [encAsked, ih]

@[simp] theorem decOut_length (c p : Block) (ys : List Block) : (decOut D c p ys).length = ys.length := by
  induction ys generalizing c p with
  | nil => rfl
  | cons y ys ih => simp [decOut, ih]

@[simp] theorem decAsked_length (c p : Block) (ys : List Block) :
    (decAsked D c p ys).length = ys.length := by
  induction ys generalizing c p with
  | nil => rfl
  | cons y ys ih => simp [decAsked, ih]

/-- The fold of encryption: the running pair is the last output and the last input block. -/
theorem foldl_igeEncBlock (xs : List Block) (ch : Chain) :
    xs.foldl (igeEncBlock E) ch =
      { prevC := (encOut E ch.prevC ch.prevP xs).getLastD ch.prevC
        prevP := xs.getLastD ch.prevP
        acc := ch.acc ++ concatBlocks (encOut E ch.prevC ch.prevP xs)
        queries := ch.queries ++ encAsked E ch.prevC ch.prevP xs } := by
  induction xs generalizing ch with
  | nil => simp [encOut, encAsked, concatBlocks]
  | cons x xs ih =>
    rw [List.foldl_cons, ih]
    simp only [igeEncBlock, encOut, encAsked, concatBlocks_cons, List.getLastD_cons, List.append_assoc,
      List.singleton_append]

/-- The fold of decryption: the running pair is the last input and the last output block. -/
theorem foldl_igeDecBlock (ys : List Block) (ch : Chain) :
    ys.foldl (igeDecBlock D) ch =
      { prevC := ys.getLastD ch.prevC
        prevP := (decOut D ch.prevC ch.prevP ys).getLastD ch.prevP
        acc := ch.acc ++ concatBlocks (decOut D ch.prevC ch.prevP ys)
        queries := ch.queries ++ decAsked D ch.prevC ch.prevP ys } := by
  induction ys generalizing ch with
  | nil => simp [decOut, decAsked, concatBlocks]
  | cons y ys ih =>
    rw [List.foldl_cons, ih]
    simp only [igeDecBlock, decOut, decAsked, concatBlocks_cons, List.getLastD_cons, List.append_assoc,
      List.singleton_append]

theorem igeEncrypt_acc (c0 p0 : Block) (X : Bytes) :
    (igeEncrypt E c0 p0 X).acc = concatBlocks (encOut E c0 p0 (blocks X)) := by
  simp [igeEncrypt, foldl_igeEncBlock, chainStart]

theorem igeEncrypt_queries (c0 p0 : Block) (X : Bytes) :
    (igeEncrypt E c0 p0 X).queries = encAsked E c0 p0 (blocks X) := by
  simp [igeEncrypt, foldl_igeEncBlock, chainStart]

theorem igeDecrypt_acc (c0 p0 : Block) (X : Bytes) :
    (igeDecrypt D c0 p0 X).acc = concatBlocks (decOut D c0 p0 (blocks X)) := by
  simp [igeDecrypt, foldl_igeDecBlock, chainStart]

theorem igeDecrypt_queries (c0 p0 : Block) (X : Bytes) :
    (igeDecrypt D c0 p0 X).queries = decAsked D c0 p0 (blocks X) := by
  simp [igeDecrypt, foldl_igeDecBlock, chainStart]

/-- What is asked of the cipher for block `i`: the plain block, xor the cipher block before it. -/
theorem encAsked_getElem (c p : Block) (xs : List Block) (i : Nat) (h : i < xs.length) :
    (encAsked E c p xs)[i]'(by simpa using h) =
      xorBlock xs[i] (if i = 0 then c else (encOut E c p xs)[i - 1]'(by simp; omega)) := by
  induction xs generalizing c p i with
  | nil => simp at h
  | cons x xs ih =>
    cases i with
    | zero => simp [encAsked]
    | succ i =>
      simp only [encAsked, List.getElem_cons_succ]
      rw [ih _ _ i (by simpa using h)]
      cases i <;> simp [encOut]

/-- Output block `i` of encryption: the answer to that query, xor the plain block before it (R99). -/
theorem encOut_getElem (c p : Block) (xs : List Block) (i : Nat) (h : i < xs.length) :
    (encOut E c p xs)[i]'(by simpa using h) =
      xorBlock (E ((encAsked E c p xs)[i]'(by simpa using h))) (if i = 0 then p else xs[i - 1]) := by
  induction xs generalizing c p i with
  | nil => simp at h
  | cons x xs ih =>
    cases i with
    | zero => simp [encOut, encAsked]
    | succ i =>
      simp only [encOut, encAsked, List.getElem_cons_succ]
      rw [ih _ _ i (by simpa using h)]
      cases i <;> simp

/-- What is asked of the inverse cipher for block `i`: the cipher block, xor the plain block before it. -/
theorem decAsked_getElem (c p : Block) (ys : List Block) (i : Nat) (h : i < ys.length) :
    (decAsked D c p ys)[i]'(by simpa using h) =
      xorBlock ys[i] (if i = 0 then p else (decOut D c p ys)[i - 1]'(by simp; omega)) := by
  induction ys generalizing c p i with
  | nil => simp at h
  | cons y ys ih =>
    cases i with
    | zero => simp [decAsked]
    | succ i =>
      simp only [decAsked, List.getElem_cons_succ]
      rw [ih _ _ i (by simpa using h)]
      cases i <;> simp [decOut]

/-- Output block `i` of decryption: the answer to that query, xor the cipher block before it (R103). -/
theorem decOut_getElem (c p : Block) (ys : List Block) (i : Nat) (h : i < ys.length) :
    (decOut D c p ys)[i]'(by simpa using h) =
      xorBlock (D ((decAsked D c p ys)[i]'(by simpa using h))) (if i = 0 then c else ys[i - 1]) := by
  induction ys generalizing c p i with
  | nil => simp at h
  | cons y ys ih =>
    cases i with
    | zero => simp [decOut, decAsked]
    | succ i =>
      simp only [decOut, decAsked, List.getElem_cons_succ]
      rw [ih _ _ i (by simpa using h)]
      cases i <;> simp

variable {E D}

/-- Decryption undoes encryption block by block, for a cipher its inverse undoes. -/
theorem decOut_encOut (h : ∀ x, D (E x) = x) (c p : Block) (xs : List Block) :
    decOut D c p (encOut E c p xs) = xs := by
  induction xs generalizing c p with
  | nil => rfl
  | cons x xs ih => simp [encOut, decOut, h, ih]

/-- Encryption undoes decryption block by block. -/
theorem encOut_decOut (h : ∀ y, E (D y) = y) (c p : Block) (ys : List Block) :
    encOut E c p (decOut D c p ys) = ys := by
  induction ys generalizing c p with
  | nil => rfl
  | cons y ys ih => simp [encOut, decOut, h, ih]

end Sys2Proof.Machine
end

