-- ==== Sys2Proof/Laws/Memory.lean ====
section
/-! SUPPORT. The laws of operand memory: read after write, the canonical form, the capacity. -/

namespace Sys2Proof.Machine

@[simp] theorem memRead_nil (a : Nat) : memRead [] a = unlisted := rfl

@[simp] theorem wf_nil : Memory.wf [] := ⟨.nil, by simp⟩

@[simp] theorem within_nil (c : Cap) : Memory.within [] c := by simp

theorem memRead_of_lt (m : Memory) (a : Nat) (h : ∀ c ∈ m, a < c.1) : memRead m a = unlisted := by
  induction m with
  | nil => rfl
  | cons x m ih =>
    have hx := h x (by simp)
    simp only [memRead, if_neg (by omega : ¬ x.1 = a)]
    exact ih fun c hc => h c (by simp [hc])

theorem wf_tail {x : Host.Cell} {m : Memory} (h : Memory.wf (x :: m)) : Memory.wf m :=
  ⟨h.1.tail, fun c hc => h.2 c (by simp [hc])⟩

theorem wf_head_lt {x : Host.Cell} {m : Memory} (h : Memory.wf (x :: m)) : ∀ c ∈ m, x.1 < c.1 :=
  fun c hc => (List.pairwise_cons.1 h.1).1 c hc

/-- Reading after a write: the byte written at its index, the old byte at every other. -/
theorem memRead_memWrite {m : Memory} (h : m.wf) (a : Nat) (b : Byte) (j : Nat) :
    memRead (memWrite m a b) j = if j = a then b else memRead m j := by
  induction m with
  | nil => by_cases hb : b = unlisted <;> by_cases hj : j = a <;> simp_all [memWrite, memRead, eq_comm]
  | cons x m ih =>
    obtain ⟨k, c⟩ := x
    have hlt := wf_head_lt h
    have ih := ih (wf_tail h)
    have hk : memRead m k = unlisted := memRead_of_lt m k hlt
    by_cases h1 : a < k
    · have ha : memRead ((k, c) :: m) a = unlisted :=
        memRead_of_lt _ a fun x hx => (List.mem_cons.1 hx).elim (fun e => e ▸ h1) fun hx => h1.trans (hlt x hx)
      simp only [memWrite, if_pos h1]
      split
      · rename_i hb; split
        · rename_i hj; rw [hj, ha, hb]
        · rfl
      · rw [memRead]; simp only [eq_comm]
    · by_cases h2 : a = k
      · subst h2
        simp only [memWrite, if_neg h1, if_pos]
        split
        · rename_i hb; split
          · rename_i hj; rw [hj, hk, hb]
          · rename_i hj; rw [memRead, if_neg (Ne.symm hj)]
        · simp only [memRead, eq_comm]
          split <;> rfl
      · simp only [memWrite, if_neg h1, if_neg h2, memRead, ih]
        by_cases hj : j = a
        · subst hj; simp [Ne.symm h2]
        · simp [hj]

theorem mem_memWrite {m : Memory} {a : Nat} {b : Byte} {c : Host.Cell} (h : c ∈ memWrite m a b) :
    c = (a, b) ∧ b ≠ unlisted ∨ c ∈ m := by
  induction m with
  | nil =>
    simp only [memWrite] at h
    split at h <;> simp_all
  | cons x m ih =>
    obtain ⟨k, d⟩ := x
    simp only [memWrite] at h
    split at h
    · split at h <;> simp_all
    · split at h
      · split at h <;> simp_all
        tauto
      · simp only [List.mem_cons] at h ⊢
        tauto

/-- A write keeps the canonical form. -/
theorem memWrite_wf {m : Memory} (h : m.wf) (a : Nat) (b : Byte) : (memWrite m a b).wf := by
  refine ⟨?_, fun c hc => (mem_memWrite hc).elim (fun h => by simp [h.1, h.2]) (h.2 c)⟩
  induction m with
  | nil => simp only [memWrite]; split <;> simp
  | cons x m ih =>
    obtain ⟨k, d⟩ := x
    have hlt := wf_head_lt h
    have ht := h.1
    rw [List.pairwise_cons] at ht
    simp only [memWrite]
    split
    · split
      · exact h.1
      · rename_i h1 _
        refine List.pairwise_cons.2 ⟨fun c hc => ?_, h.1⟩
        rcases List.mem_cons.1 hc with rfl | hc
        · exact h1
        · exact h1.trans (hlt c hc)
    · split
      · rename_i h2
        split
        · exact ht.2
        · exact List.pairwise_cons.2 ⟨fun c hc => h2 ▸ hlt c hc, ht.2⟩
      · refine List.pairwise_cons.2 ⟨fun c hc => ?_, ih (wf_tail h)⟩
        rcases mem_memWrite hc with ⟨rfl, -⟩ | hc
        · show k < a; omega
        · exact hlt c hc

/-- A write below the capacity keeps a memory within it. -/
theorem memWrite_within {m : Memory} {c : Cap} (h : m.within c) {a : Nat} (ha : c.fits (a + 1) = true)
    (b : Byte) : (memWrite m a b).within c := by
  intro x hx
  rcases mem_memWrite hx with ⟨rfl, -⟩ | hx
  · exact ha
  · exact h x hx

/-- Equal contents are equal data. -/
theorem memory_ext {m m' : Memory} (h : m.wf) (h' : m'.wf) (e : ∀ a, memRead m a = memRead m' a) :
    m = m' := by
  induction m generalizing m' with
  | nil =>
    cases m' with
    | nil => rfl
    | cons y m' => exact absurd ((by simpa [memRead] using e y.1 : unlisted = y.2)).symm (h'.2 y (by simp))
  | cons x m ih =>
    cases m' with
    | nil => exact absurd (by simpa [memRead] using e x.1 : x.2 = unlisted) (h.2 x (by simp))
    | cons y m' =>
      obtain ⟨k, c⟩ := x
      obtain ⟨l, d⟩ := y
      have hk := memRead_of_lt m k (wf_head_lt h)
      have hl := memRead_of_lt m' l (wf_head_lt h')
      have hc : c ≠ unlisted := h.2 (k, c) (by simp)
      have hd : d ≠ unlisted := h'.2 (l, d) (by simp)
      have ek := e k
      have el := e l
      rcases Nat.lt_trichotomy k l with hkl | rfl | hkl
      · have := memRead_of_lt m' k fun z hz => hkl.trans (wf_head_lt h' z hz)
        simp_all [memRead, hkl.ne']
      · have hcd : c = d := by simpa [memRead] using ek
        subst hcd
        rw [ih (wf_tail h) (wf_tail h') fun a => ?_]
        have ea := e a
        by_cases ha : k = a
        · subst ha; rw [hk, hl]
        · simpa [memRead, ha] using ea
      · have := memRead_of_lt m l fun z hz => hkl.trans (wf_head_lt h z hz)
        simp_all [memRead, hkl.ne']

@[simp] theorem memSeq_length (m : Memory) (i n : Nat) : (memSeq m i n).length = n := by simp [memSeq]

@[simp] theorem memSeq_getElem (m : Memory) (i n j : Nat) (h : j < (memSeq m i n).length) :
    (memSeq m i n)[j] = memRead m (i + j) := by simp [memSeq]

end Sys2Proof.Machine
end

