-- ==== Sys2Proof/Laws/Operands.lean ====
section
/-! SUPPORT. The operand state: what a store changes, that it keeps the invariant, the cleared operands, and that the
numbers of spaces and registers name them. -/

namespace Sys2Proof.Machine

@[simp] theorem spaceOfId_spaceId (S : Space) : spaceOfId (spaceId S) = some S := by cases S <;> rfl

@[simp] theorem regOfNumber_regNumber (r : Reg) : regOfNumber (regNumber r) = some r := by cases r <;> rfl

@[simp] theorem store_inlen (o : Operands) (S : Space) (i : Nat) (b : Byte) :
    (o.store S i b).inlen = o.inlen := by cases S <;> rfl

@[simp] theorem store_modlen (o : Operands) (S : Space) (i : Nat) (b : Byte) :
    (o.store S i b).modlen = o.modlen := by cases S <;> rfl

@[simp] theorem store_explen (o : Operands) (S : Space) (i : Nat) (b : Byte) :
    (o.store S i b).explen = o.explen := by cases S <;> rfl

/-- A store changes the one byte of the one operand space it names. -/
theorem memRead_store {o : Operands} (h : o.Ok) (S S' : Space) (i : Nat) (b : Byte) (j : Nat) :
    memRead ((o.store S i b).space S') j =
      if S' = S ∧ S ≠ .reg ∧ S ≠ .output ∧ j = i then b else memRead (o.space S') j := by
  have h1 := (h.spaces .input).1
  have h2 := (h.spaces .key).1
  have h3 := (h.spaces .iv).1
  have h4 := (h.spaces .modulus).1
  have h5 := (h.spaces .exponent).1
  simp only [Operands.space] at h1 h2 h3 h4 h5
  cases S <;> cases S' <;>
    simp [Operands.store, Operands.space, memRead_memWrite h1, memRead_memWrite h2, memRead_memWrite h3,
      memRead_memWrite h4, memRead_memWrite h5]

/-- A store below the capacity keeps the invariant on the operands. -/
theorem store_ok {o : Operands} (h : o.Ok) (S : Space) {i : Nat} (b : Byte)
    (hi : (spaceCapacity S).fits (i + 1) = true) : (o.store S i b).Ok := by
  have ok := h.spaces
  refine ⟨fun S' => ?_, ?_, ?_, ?_⟩
  · have key : ∀ {m : Memory}, m.wf ∧ m.within (spaceCapacity S) →
        (memWrite m i b).wf ∧ (memWrite m i b).within (spaceCapacity S) :=
      fun hm => ⟨memWrite_wf hm.1 i b, memWrite_within hm.2 hi b⟩
    by_cases e : S' = S
    · subst e
      cases S'
      · exact ok .reg
      · exact key (ok .input)
      · exact ok .output
      · exact key (ok .key)
      · exact key (ok .iv)
      · exact key (ok .modulus)
      · exact key (ok .exponent)
    · have : (o.store S i b).space S' = o.space S' := by
        cases S <;> cases S' <;> first | rfl | exact absurd rfl e
      rw [this]
      exact ok S'
  · rw [store_inlen]; exact h.inlen
  · rw [store_modlen]; exact h.modlen
  · rw [store_explen]; exact h.explen

@[simp] theorem memRead_zero (S : Space) (j : Nat) : memRead (Operands.zero.space S) j = 0 := by
  cases S <;> rfl

/-- The cleared operands meet the invariant. -/
theorem zero_ok : Operands.zero.Ok :=
  ⟨fun S => by cases S <;> exact ⟨wf_nil, within_nil _⟩, Cap.fits_of_le_least (Nat.zero_le _),
    Cap.fits_of_le_least (Nat.zero_le _), Cap.fits_of_le_least (Nat.zero_le _)⟩

end Sys2Proof.Machine
end

