-- ==== Sys2Proof/Laws/PerInstr.lean ====
section
/-! SUPPORT. Per command: its row of the opcode table is the only row that applies to its code. -/

namespace Sys2Proof.Laws.OpcodeRow

/-- The rows that apply to the command's code are exactly one, it is the command's, and it compares the whole
byte with that code (30_encoding.md R66, R72). -/
def Statement (i : Instr) : Prop :=
  opcodeTable.filter (rowMatches (encode i)) = [⟨0xFF, encode i, i⟩]

theorem rsaEnc : Statement .rsaEnc := by unfold Statement; decide

theorem igeEnc : Statement .igeEnc := by unfold Statement; decide

theorem igeDec : Statement .igeDec := by unfold Statement; decide

end Sys2Proof.Laws.OpcodeRow
end

