-- ==== Sys2Proof/Laws/State.lean ====
section
/-! SUPPORT. What each update of the state does to each field. -/

namespace Sys2Proof.Machine

variable (s : State)

@[simp] theorem State.withPending_status (es : List Event) : (s.withPending es).status = s.status := rfl
@[simp] theorem State.withPending_operands (es : List Event) : (s.withPending es).operands = s.operands := rfl
@[simp] theorem State.withPending_out (es : List Event) : (s.withPending es).out = s.out := rfl
@[simp] theorem State.withPending_pending (es : List Event) : (s.withPending es).pending = es := rfl
@[simp] theorem State.withPending_replies (es : List Event) : (s.withPending es).replies = s.replies := rfl
@[simp] theorem State.withPending_injected (es : List Event) : (s.withPending es).injected = s.injected := rfl
@[simp] theorem State.withPending_rngCursor (es : List Event) : (s.withPending es).rngCursor = s.rngCursor := rfl
@[simp] theorem State.withPending_requests (es : List Event) : (s.withPending es).requests = s.requests := rfl
@[simp] theorem State.withPending_errors (es : List Event) : (s.withPending es).errors = s.errors := rfl

@[simp] theorem State.withOperands_status (o : Operands) : (s.withOperands o).status = s.status := rfl
@[simp] theorem State.withOperands_operands (o : Operands) : (s.withOperands o).operands = o := rfl
@[simp] theorem State.withOperands_out (o : Operands) : (s.withOperands o).out = s.out := rfl
@[simp] theorem State.withOperands_pending (o : Operands) : (s.withOperands o).pending = s.pending := rfl
@[simp] theorem State.withOperands_replies (o : Operands) : (s.withOperands o).replies = s.replies := rfl
@[simp] theorem State.withOperands_injected (o : Operands) : (s.withOperands o).injected = s.injected := rfl
@[simp] theorem State.withOperands_rngCursor (o : Operands) : (s.withOperands o).rngCursor = s.rngCursor := rfl
@[simp] theorem State.withOperands_requests (o : Operands) : (s.withOperands o).requests = s.requests := rfl
@[simp] theorem State.withOperands_errors (o : Operands) : (s.withOperands o).errors = s.errors := rfl

@[simp] theorem State.withReply_status (r : Reply) : (s.withReply r).status = s.status := rfl
@[simp] theorem State.withReply_operands (r : Reply) : (s.withReply r).operands = s.operands := rfl
@[simp] theorem State.withReply_out (r : Reply) : (s.withReply r).out = s.out := rfl
@[simp] theorem State.withReply_pending (r : Reply) : (s.withReply r).pending = s.pending := rfl
@[simp] theorem State.withReply_replies (r : Reply) : (s.withReply r).replies = s.replies ++ [r] := rfl
@[simp] theorem State.withReply_injected (r : Reply) : (s.withReply r).injected = s.injected := rfl
@[simp] theorem State.withReply_rngCursor (r : Reply) : (s.withReply r).rngCursor = s.rngCursor := rfl
@[simp] theorem State.withReply_requests (r : Reply) : (s.withReply r).requests = s.requests := rfl
@[simp] theorem State.withReply_errors (r : Reply) : (s.withReply r).errors = s.errors := rfl

@[simp] theorem State.withRequests_status (rs : List PortRequest) : (s.withRequests rs).status = s.status := rfl
@[simp] theorem State.withRequests_operands (rs : List PortRequest) : (s.withRequests rs).operands = s.operands := rfl
@[simp] theorem State.withRequests_out (rs : List PortRequest) : (s.withRequests rs).out = s.out := rfl
@[simp] theorem State.withRequests_pending (rs : List PortRequest) : (s.withRequests rs).pending = s.pending := rfl
@[simp] theorem State.withRequests_replies (rs : List PortRequest) : (s.withRequests rs).replies = s.replies := rfl
@[simp] theorem State.withRequests_injected (rs : List PortRequest) : (s.withRequests rs).injected = s.injected := rfl
@[simp] theorem State.withRequests_rngCursor (rs : List PortRequest) : (s.withRequests rs).rngCursor = s.rngCursor := rfl
@[simp] theorem State.withRequests_requests (rs : List PortRequest) : (s.withRequests rs).requests = s.requests ++ rs := rfl
@[simp] theorem State.withRequests_errors (rs : List PortRequest) : (s.withRequests rs).errors = s.errors := rfl

@[simp] theorem State.afterDraw_status (n : Nat) : (s.afterDraw n).status = s.status := rfl
@[simp] theorem State.afterDraw_operands (n : Nat) : (s.afterDraw n).operands = s.operands := rfl
@[simp] theorem State.afterDraw_out (n : Nat) : (s.afterDraw n).out = s.out := rfl
@[simp] theorem State.afterDraw_pending (n : Nat) : (s.afterDraw n).pending = s.pending := rfl
@[simp] theorem State.afterDraw_replies (n : Nat) : (s.afterDraw n).replies = s.replies := rfl
@[simp] theorem State.afterDraw_injected (n : Nat) : (s.afterDraw n).injected = s.injected.drop n := rfl
@[simp] theorem State.afterDraw_rngCursor (n : Nat) : (s.afterDraw n).rngCursor = s.rngCursor + (n - s.injected.length) := rfl
@[simp] theorem State.afterDraw_requests (n : Nat) : (s.afterDraw n).requests = s.requests := rfl
@[simp] theorem State.afterDraw_errors (n : Nat) : (s.afterDraw n).errors = s.errors := rfl

@[simp] theorem State.succeed_status (B : Bytes) : (s.succeed B).status = .success := rfl
@[simp] theorem State.succeed_operands (B : Bytes) : (s.succeed B).operands = .zero := rfl
@[simp] theorem State.succeed_out (B : Bytes) : (s.succeed B).out = B := rfl
@[simp] theorem State.succeed_pending (B : Bytes) : (s.succeed B).pending = s.pending := rfl
@[simp] theorem State.succeed_replies (B : Bytes) : (s.succeed B).replies = s.replies := rfl
@[simp] theorem State.succeed_injected (B : Bytes) : (s.succeed B).injected = s.injected := rfl
@[simp] theorem State.succeed_rngCursor (B : Bytes) : (s.succeed B).rngCursor = s.rngCursor := rfl
@[simp] theorem State.succeed_requests (B : Bytes) : (s.succeed B).requests = s.requests := rfl
@[simp] theorem State.succeed_errors (B : Bytes) : (s.succeed B).errors = s.errors := rfl

@[simp] theorem State.fail_status (e : CmdError) : (s.fail e).status = .failed e := rfl
@[simp] theorem State.fail_operands (e : CmdError) : (s.fail e).operands = .zero := rfl
@[simp] theorem State.fail_out (e : CmdError) : (s.fail e).out = s.out := rfl
@[simp] theorem State.fail_pending (e : CmdError) : (s.fail e).pending = s.pending := rfl
@[simp] theorem State.fail_replies (e : CmdError) : (s.fail e).replies = s.replies := rfl
@[simp] theorem State.fail_injected (e : CmdError) : (s.fail e).injected = s.injected := rfl
@[simp] theorem State.fail_rngCursor (e : CmdError) : (s.fail e).rngCursor = s.rngCursor := rfl
@[simp] theorem State.fail_requests (e : CmdError) : (s.fail e).requests = s.requests := rfl
@[simp] theorem State.fail_errors (e : CmdError) : (s.fail e).errors = s.errors ++ [e] := rfl

@[simp] theorem State.platformReset_status : (s.platformReset).status = .afterReset := rfl
@[simp] theorem State.platformReset_operands : (s.platformReset).operands = .zero := rfl
@[simp] theorem State.platformReset_out : (s.platformReset).out = [] := rfl
@[simp] theorem State.platformReset_pending : (s.platformReset).pending = s.pending := rfl
@[simp] theorem State.platformReset_replies : (s.platformReset).replies = s.replies := rfl
@[simp] theorem State.platformReset_injected : (s.platformReset).injected = s.injected := rfl
@[simp] theorem State.platformReset_rngCursor : (s.platformReset).rngCursor = s.rngCursor := rfl
@[simp] theorem State.platformReset_requests : (s.platformReset).requests = s.requests := rfl
@[simp] theorem State.platformReset_errors : (s.platformReset).errors = s.errors := rfl

/-- Padding changes the random source and the request record, nothing else. -/
theorem State.afterPad_block (n : Nat) : (s.afterPad n).status = s.status ∧
    (s.afterPad n).operands = s.operands ∧ (s.afterPad n).out = s.out := by
  unfold State.afterPad; split <;> simp

@[simp] theorem State.afterPad_status (n : Nat) : (s.afterPad n).status = s.status :=
  (s.afterPad_block n).1

@[simp] theorem State.afterPad_operands (n : Nat) : (s.afterPad n).operands = s.operands :=
  (s.afterPad_block n).2.1

@[simp] theorem State.afterPad_out (n : Nat) : (s.afterPad n).out = s.out :=
  (s.afterPad_block n).2.2

@[simp] theorem State.afterPad_pending (n : Nat) : (s.afterPad n).pending = s.pending := by
  unfold State.afterPad; split <;> simp

@[simp] theorem State.afterPad_replies (n : Nat) : (s.afterPad n).replies = s.replies := by
  unfold State.afterPad; split <;> simp

@[simp] theorem State.afterPad_errors (n : Nat) : (s.afterPad n).errors = s.errors := by
  unfold State.afterPad; split <;> simp

@[simp] theorem State.afterPad_injected (n : Nat) : (s.afterPad n).injected = s.injected.drop n := by
  unfold State.afterPad; split <;> simp_all

@[simp] theorem State.afterPad_rngCursor (n : Nat) :
    (s.afterPad n).rngCursor = s.rngCursor + (n - s.injected.length) := by
  unfold State.afterPad; split <;> simp_all

@[simp] theorem State.afterPad_requests (n : Nat) :
    (s.afterPad n).requests = s.requests ++ if n = 0 then [] else [.rng n] := by
  unfold State.afterPad; split <;> simp

end Sys2Proof.Machine
end

