-- ==== Sys2Proof/Laws/Ports.lean ====
section
/-! SUPPORT. The ports: the lengths of what they return, the random stream as it advances, the inverse property
of the AES port; and the lengths of the operands. -/

namespace Sys2Proof.Machine

@[simp] theorem aesDec_aesEnc (k : Key) (x : Block) : aesDec k (aesEnc k x) = x := by
  simp [aesDec, aesEnc]

@[simp] theorem aesEnc_aesDec (k : Key) (y : Block) : aesEnc k (aesDec k y) = y := by
  simp [aesDec, aesEnc]

@[simp] theorem draw_length (s : State) (n : Nat) : (s.draw n).length = n := by simp [State.draw]

@[simp] theorem draw_getElem (s : State) (n k : Nat) (h : k < (s.draw n).length) :
    (s.draw n)[k] = s.rngByte k := by simp [State.draw]

@[simp] theorem inputSeq_length (o : Operands) : o.inputSeq.length = o.inlen := by
  simp [Operands.inputSeq]

@[simp] theorem padded_length (s : State) (n : Nat) :
    (s.padded n).length = s.operands.inlen + n := by simp [State.padded]

/-- After `n` bytes the stream goes on where it stood (R57). -/
theorem rngByte_advance {s t : State} {n : Nat} (hi : t.injected = s.injected.drop n)
    (hc : t.rngCursor = s.rngCursor + (n - s.injected.length)) (k : Nat) :
    t.rngByte k = s.rngByte (n + k) := by
  unfold State.rngByte
  rw [hi, hc, List.getElem?_drop]
  rcases hb : s.injected[n + k]? with _ | b
  · simp only [List.length_drop]
    congr 1
    have := List.getElem?_eq_none_iff.1 hb
    omega
  · rfl

/-- The bytes returned depend on nothing but the source. -/
theorem rngByte_congr {s t : State} (hi : t.injected = s.injected) (hc : t.rngCursor = s.rngCursor)
    (k : Nat) : t.rngByte k = s.rngByte k := by
  unfold State.rngByte; rw [hi, hc]

theorem draw_congr {s t : State} (h : ∀ k, s.rngByte k = t.rngByte k) (n : Nat) : s.draw n = t.draw n := by
  simp [State.draw, h]

/-- The padded length is the next multiple of 16 (R97). -/
theorem igePadLen_add (L : Nat) : L + igePadLen L = 16 * ((L + 15) / 16) := by
  unfold igePadLen; split <;> omega

end Sys2Proof.Machine
end

