-- ==== Sys2Proof/Laws/Steps.lean ====
section
/-! SUPPORT. What a command and an access can do, said once: the inversion lemmas later proofs cite. -/

namespace Sys2Proof.Machine

/-- `RSA_ENC` rejects a bad length, rejects a zero modulus, or completes with the result. -/
theorem execRsaEnc_cases (s : State) :
    ((s.operands.inlen = 0 ∨ s.operands.inlen > 255) ∧ execRsaEnc s = .next (s.fail .invalidInput)) ∨
    (1 ≤ s.operands.inlen ∧ s.operands.inlen ≤ 255 ∧ s.operands.modulusN = 0 ∧
      execRsaEnc s = .next (s.fail .invalidKey)) ∨
    (1 ≤ s.operands.inlen ∧ s.operands.inlen ≤ 255 ∧ s.operands.modulusN ≠ 0 ∧
      execRsaEnc s = .next (((s.afterPad (rsaPadLen s.operands.inlen)).withRequests
        [.modexp (be2int (s.padded (rsaPadLen s.operands.inlen))) s.operands.exponentE
          s.operands.modulusN]).succeed
        (rsaResult Config.canonMode (s.padded (rsaPadLen s.operands.inlen)) s.operands.exponentE
          s.operands.modulusN))) := by
  unfold execRsaEnc
  by_cases h : s.operands.inlen = 0 ∨ s.operands.inlen > 255
  · exact .inl ⟨h, if_pos h⟩
  · have h' := not_or.1 h
    by_cases hN : s.operands.modulusN = 0
    · exact .inr (.inl ⟨by omega, by omega, hN, by simp only [if_neg h, if_pos hN]⟩)
    · exact .inr (.inr ⟨by omega, by omega, hN, by simp only [if_neg h, if_neg hN]⟩)

/-- `IGE_DEC` rejects an unaligned length or completes with the result. -/
theorem execIgeDec_cases (s : State) :
    (s.operands.inlen % 16 ≠ 0 ∧ execIgeDec s = .next (s.fail .malformedBlockLength)) ∨
    (s.operands.inlen % 16 = 0 ∧ execIgeDec s =
      .next ((s.withRequests ((igeDecrypt (aesDec s.operands.keyK) s.operands.ivCipher0
        s.operands.ivPlain0 s.operands.inputSeq).queries.map (.aesDec s.operands.keyK))).succeed
        (igeDecrypt (aesDec s.operands.keyK) s.operands.ivCipher0 s.operands.ivPlain0
          s.operands.inputSeq).acc)) := by
  unfold execIgeDec
  by_cases h : s.operands.inlen % 16 = 0
  · exact .inr ⟨h, if_neg (not_not.2 h)⟩
  · exact .inl ⟨h, if_pos h⟩

/-- Every command completes: with an error, or with a result after some padding and some port requests. -/
theorem exec_completes (i : Instr) (s : State) :
    (∃ e, exec i s = .next (s.fail e)) ∨
    ∃ n rs B, exec i s = .next (((s.afterPad n).withRequests rs).succeed B) := by
  cases i with
  | rsaEnc =>
    rcases execRsaEnc_cases s with ⟨-, h⟩ | ⟨-, -, -, h⟩ | ⟨-, -, -, h⟩
    · exact .inl ⟨_, h⟩
    · exact .inl ⟨_, h⟩
    · exact .inr ⟨_, _, _, h⟩
  | igeEnc => exact .inr ⟨_, _, _, rfl⟩
  | igeDec =>
    rcases execIgeDec_cases s with ⟨-, h⟩ | ⟨-, h⟩
    · exact .inl ⟨_, h⟩
    · exact .inr ⟨0, _, _, h⟩

/-- The code of a command decodes to it and to nothing else. -/
theorem decode_eq_command (v : Byte) (i : Instr) (h : decode v = .command i) : v = encode i := by
  cases i <;> revert v <;> decide +kernel

/-- A code decodes to a command it is the code of, or is illegal and the code of none. -/
theorem decode_cases (v : Byte) :
    (∃ i, v = encode i ∧ decode v = .command i) ∨
    (v ≠ 1 ∧ v ≠ 2 ∧ v ≠ 3 ∧ decode v = .illegal v) := by
  by_cases h1 : v = 1
  · exact .inl ⟨.rsaEnc, h1, h1 ▸ rfl⟩
  by_cases h2 : v = 2
  · exact .inl ⟨.igeEnc, h2, h2 ▸ rfl⟩
  by_cases h3 : v = 3
  · exact .inl ⟨.igeDec, h3, h3 ▸ rfl⟩
  refine .inr ⟨h1, h2, h3, ?_⟩
  revert v; decide +kernel

/-- An issued code runs its command, or completes with `IllegalCommand`. -/
theorem issueCommand_cases (v : Byte) (s : State) :
    (∃ i, v = encode i ∧ issueCommand exec v s = exec i s) ∨
    (v ≠ 1 ∧ v ≠ 2 ∧ v ≠ 3 ∧ issueCommand exec v s = .next (s.fail .illegalCommand)) := by
  rcases decode_cases v with ⟨i, hv, h⟩ | ⟨h1, h2, h3, h⟩
  · exact .inl ⟨i, hv, by simp only [issueCommand, h]⟩
  · exact .inr ⟨h1, h2, h3, by simp only [issueCommand, h]⟩

/-- Every issued code completes: with an error, or with a result. -/
theorem issueCommand_completes (v : Byte) (s : State) :
    (∃ e, issueCommand exec v s = .next (s.fail e)) ∨
    ∃ n rs B, issueCommand exec v s = .next (((s.afterPad n).withRequests rs).succeed B) := by
  rcases issueCommand_cases v s with ⟨i, -, h⟩ | ⟨-, -, -, h⟩
  · rw [h]; exact exec_completes i s
  · exact .inl ⟨_, h⟩

/-- What an access that answers a next state has done. -/
inductive AccessDone (s : State) : Event → State → Prop
  | write (space i : Nat) (b : Byte) (S : Space) (hS : spaceOfId space = some S) (hr : S ≠ .reg)
      (hi : (spaceCapacity S).fits (i + 1) = true) :
      AccessDone s (.write space i b) (s.withOperands (s.operands.store S i b))
  | read (space i : Nat) (S : Space) (hS : spaceOfId space = some S) (hr : S ≠ .reg)
      (hi : (spaceCapacity S).fits (i + 1) = true) :
      AccessDone s (.read space i) (s.withReply (.byte (s.spaceByte S i)))
  | inlen (v : Nat) (hv : Config.dataMax.fits v = true) :
      AccessDone s (.writeReg 2 v) (s.withOperands { s.operands with inlen := v })
  | modlen (v : Nat) (hv : Config.modMax.fits v = true) :
      AccessDone s (.writeReg 4 v) (s.withOperands { s.operands with modlen := v })
  | explen (v : Nat) (hv : Config.expMax.fits v = true) :
      AccessDone s (.writeReg 5 v) (s.withOperands { s.operands with explen := v })
  | readOnly (r v : Nat) (hr : r = 1 ∨ r = 3 ∧ Config.dataMax.fits v = true) : AccessDone s (.writeReg r v) s
  | readReg (r : Nat) (R : Reg) (hR : regOfNumber r = some R) :
      AccessDone s (.readReg r) (s.withReply (.value (s.regValue R)))
  | reset : AccessDone s .reset s.platformReset
  | failed (v : Nat) (hv : v < 256) (e : CmdError)
      (h : issueCommand exec (BitVec.ofNat 8 v) s = .next (s.fail e)) :
      AccessDone s (.writeReg 0 v) (s.fail e)
  | succeeded (v : Nat) (hv : v < 256) (n : Nat) (rs : List PortRequest) (B : Bytes)
      (h : issueCommand exec (BitVec.ofNat 8 v) s = .next (((s.afterPad n).withRequests rs).succeed B)) :
      AccessDone s (.writeReg 0 v) (((s.afterPad n).withRequests rs).succeed B)

/-- A register number and what it names. -/
theorem regOfNumber_eq (r : Nat) :
    r = 0 ∧ regOfNumber r = some .cmd ∨ r = 1 ∧ regOfNumber r = some .status ∨
    r = 2 ∧ regOfNumber r = some .inlen ∨ r = 3 ∧ regOfNumber r = some .outlen ∨
    r = 4 ∧ regOfNumber r = some .modlen ∨ r = 5 ∧ regOfNumber r = some .explen ∨
    6 ≤ r ∧ regOfNumber r = none := by
  match r with
  | 0 => simp [regOfNumber]
  | 1 => simp [regOfNumber]
  | 2 => simp [regOfNumber]
  | 3 => simp [regOfNumber]
  | 4 => simp [regOfNumber]
  | 5 => simp [regOfNumber]
  | n + 6 => simp [regOfNumber]

/-- A space id and what it names. -/
theorem spaceOfId_eq (n : Nat) :
    n = 0 ∧ spaceOfId n = some .reg ∨ n = 1 ∧ spaceOfId n = some .input ∨
    n = 2 ∧ spaceOfId n = some .output ∨ n = 3 ∧ spaceOfId n = some .key ∨
    n = 4 ∧ spaceOfId n = some .iv ∨ n = 5 ∧ spaceOfId n = some .modulus ∨
    n = 6 ∧ spaceOfId n = some .exponent ∨ 7 ≤ n ∧ spaceOfId n = none := by
  match n with
  | 0 => simp [spaceOfId]
  | 1 => simp [spaceOfId]
  | 2 => simp [spaceOfId]
  | 3 => simp [spaceOfId]
  | 4 => simp [spaceOfId]
  | 5 => simp [spaceOfId]
  | 6 => simp [spaceOfId]
  | n + 7 => simp [spaceOfId]

theorem hostWrite_next {space i : Nat} {b : Byte} {s t : State} (h : hostWrite space i b s = .next t) :
    ∃ S, spaceOfId space = some S ∧ S ≠ .reg ∧ (spaceCapacity S).fits (i + 1) = true ∧
      t = s.withOperands (s.operands.store S i b) := by
  unfold hostWrite at h
  split at h
  · cases h
  · cases h
  · rename_i S hr hS
    split at h
    · rename_i hi
      cases h
      exact ⟨S, hS, by rintro rfl; exact hr rfl, hi, rfl⟩
    · cases h

theorem hostRead_next {space i : Nat} {s t : State} (h : hostRead space i s = .next t) :
    ∃ S, spaceOfId space = some S ∧ S ≠ .reg ∧ (spaceCapacity S).fits (i + 1) = true ∧
      t = s.withReply (.byte (s.spaceByte S i)) := by
  unfold hostRead at h
  split at h
  · cases h
  · cases h
  · rename_i S hr hS
    split at h
    · rename_i hi
      cases h
      exact ⟨S, hS, by rintro rfl; exact hr rfl, hi, rfl⟩
    · cases h

theorem hostReadReg_next {r : Nat} {s t : State} (h : hostReadReg r s = .next t) :
    ∃ R, regOfNumber r = some R ∧ t = s.withReply (.value (s.regValue R)) := by
  unfold hostReadReg at h
  split at h
  · cases h
  · rename_i R hR
    cases h
    exact ⟨R, hR, rfl⟩

theorem hostWriteReg_next {r v : Nat} {s t : State} (h : hostWriteReg exec r v s = .next t) :
    AccessDone s (.writeReg r v) t := by
  rcases regOfNumber_eq r with ⟨rfl, hr⟩ | ⟨rfl, hr⟩ | ⟨rfl, hr⟩ | ⟨rfl, hr⟩ | ⟨rfl, hr⟩ | ⟨rfl, hr⟩ |
    ⟨-, hr⟩ <;> simp only [hostWriteReg, hr] at h
  · split at h
    · rename_i hv
      have hv : v < 256 := by simpa [commandWordOk] using hv
      rcases issueCommand_completes (BitVec.ofNat 8 v) s with ⟨e, he⟩ | ⟨n, rs, B, hB⟩
      · rw [he] at h; cases h; exact .failed v hv e he
      · rw [hB] at h; cases h; exact .succeeded v hv n rs B hB
    · cases h
  · cases h; exact .readOnly 1 v (.inl rfl)
  · split at h
    · cases h; exact .inlen v ‹_›
    · cases h
  · split at h
    · cases h; exact .readOnly 3 v (.inr ⟨rfl, ‹_›⟩)
    · cases h
  · split at h
    · cases h; exact .modlen v ‹_›
    · cases h
  · split at h
    · cases h; exact .explen v ‹_›
    · cases h
  · cases h

/-- Once and for all: an access that answers a next state has done one of these. -/
theorem access_next {e : Event} {s t : State} (h : access exec e s = .next t) : AccessDone s e t := by
  cases e with
  | write space i b =>
    obtain ⟨S, hS, hr, hi, rfl⟩ := hostWrite_next h
    exact .write space i b S hS hr hi
  | read space i =>
    obtain ⟨S, hS, hr, hi, rfl⟩ := hostRead_next h
    exact .read space i S hS hr hi
  | writeReg r v => exact hostWriteReg_next h
  | readReg r =>
    obtain ⟨R, hR, rfl⟩ := hostReadReg_next h
    exact .readReg r R hR
  | reset => cases h; exact .reset

/-- A write of a command value to `CMD` is its issue. -/
theorem step_command {s : State} {rest : List Event} {v : Nat} (h : s.pending = .writeReg 0 v :: rest)
    (hv : v < 256) : step s = issueCommand exec (BitVec.ofNat 8 v) (s.withPending rest) := by
  simp [step, h, access, hostWriteReg, regOfNumber, commandWordOk, hv]

/-- A step is idle, or carries out the first access. -/
theorem step_next {s t : State} (h : step s = .next t) :
    (s.pending = [] ∧ t = s) ∨
    ∃ e rest, s.pending = e :: rest ∧ AccessDone (s.withPending rest) e t := by
  unfold step at h
  split at h
  · rename_i hp; cases h; exact .inl ⟨hp, rfl⟩
  · rename_i e rest hp; exact .inr ⟨e, rest, hp, access_next h⟩

end Sys2Proof.Machine
end

