-- ==== Sys2Proof/Tests/Slice0.lean ====
section
/-! SUPPORT. The model's own tests: the checks of WellFormed and of the host's contract, words written out from the
encoding, vectors of 95_test_vectors.md, and a witness for the hypotheses of each statement. -/

namespace Sys2Proof.Tests

open Sys2Proof.Machine

/-! ### Helpers -/

/-- The cells of a byte sequence loaded from index 0 (the host's `WR S[0], B`). -/
def load (B : Bytes) : Memory := B.zipIdx.foldl (fun m x => memWrite m x.2 x.1) []

/-- The bytes `a`, `a+1`, … (`n` of them), as the vectors write `a..b`. -/
def run (a n : Nat) : Bytes := (List.range n).map fun k => BitVec.ofNat 8 (a + k)

/-- A reset state with operands loaded. -/
def withOps (o : Operands) : State := { State.reset with operands := o }

/-- A reset state with accesses to make. -/
def withScript (es : List Event) : State := { State.reset with pending := es }

/-- RSA operands: modulus, exponent, message. -/
def rsaOps (m e pt : Bytes) : Operands :=
  { Operands.zero with
    modlen := m.length, modulus := load m, explen := e.length, exponent := load e,
    inlen := pt.length, input := load pt }

/-- IGE operands: key, IV, input. -/
def igeOps (k v x : Bytes) : Operands :=
  { Operands.zero with key := load k, iv := load v, inlen := x.length, input := load x }

/-- A block of 16 bytes given as its big-endian number. -/
def blk (n : Nat) : Block := ⟨int2be n 16, by simp⟩

/-- A block cipher known at the points a vector lists, the identity elsewhere. -/
def known (ps : List (Nat × Nat)) (x : Block) : Block :=
  match ps.find? (fun p => blk p.1 == x) with
  | some p => blk p.2
  | none => x

/-- The outcome is a stop. -/
def stops : StepOutcome → Bool
  | .next _ => false
  | .fault _ => true
  | .refused _ => true

/-! ### WellFormed and the host's contract: an ill-formed term for each check -/

theorem test_commandWord_above_255_refused : commandWordOk 255 = true ∧ commandWordOk 256 = false := by decide

theorem test_command_above_255_stops : stops (step (withScript [.writeReg 0 256])) = true := by decide

theorem test_unknown_register_stops : stops (step (withScript [.writeReg 6 0])) = true ∧
    stops (step (withScript [.readReg 6])) = true ∧ stops (step (withScript [.readReg 5])) = false := by decide

theorem test_unknown_space_stops : stops (step (withScript [.write 7 0 1])) = true ∧
    stops (step (withScript [.read 7 0])) = true := by decide

theorem test_register_space_as_bytes_stops : stops (step (withScript [.write 0 0 1])) = true ∧
    stops (step (withScript [.read 0 0])) = true := by decide

theorem test_index_at_capacity_stops : stops (step (withScript [.write 3 31 1])) = false ∧
    stops (step (withScript [.write 3 32 1])) = true ∧ stops (step (withScript [.read 4 31])) = false ∧
    stops (step (withScript [.read 4 32])) = true := by decide

theorem test_length_out_of_range_stops (v : Nat) (h : Config.dataMax.fits v = false) :
    stops (step (withScript [.writeReg 2 v])) = true ∧ stops (step (withScript [.writeReg 3 v])) = true := by
  simp [step, withScript, access, hostWriteReg, regOfNumber, h, stops]

/-! ### Decoding: words written out from R63 and R66; Q-1 -/

theorem test_decode_rsaEnc : decodeTableWord 8 0b00000001 = some .rsaEnc := by decide

theorem test_decode_igeEnc : decodeTableWord 8 0b00000010 = some .igeEnc := by decide

theorem test_decode_igeDec : decodeTableWord 8 0b00000011 = some .igeDec := by decide

theorem test_decode_reserved : [0x00, 0x04, 0x10, 0x80, 0x81, 0xfe, 0xff].map (decodeTableWord 8) =
    [none, none, none, none, none, none, none] := by decide

/-- Each row's command answers a next state as the first command after reset (Q-1). -/
theorem test_first_command_after_reset :
    [0, 1, 2, 3, 4].map (fun w => match step (State.reset.withFetchWord 8 w) with
      | .next t => (statusWord t.status).toNat
      | .fault _ => 0
      | .refused _ => 0) = [0x33, 0x13, 0x01, 0x01, 0x33] := by decide +kernel

/-! ### Codec: K-1, K-2 -/

theorem test_be2int : [[], [0xff], [1, 0], [0, 1, 0], [0x0c, 0xa1], [1, 0, 1]].map be2int =
    [0, 255, 256, 256, 3233, 65537] := by decide

theorem test_canon_minUnsigned : [0, 1, 127, 128, 255, 256, 2472, 32768].map (canon .minUnsigned) =
    [[0], [1], [0x7f], [0x80], [0xff], [1, 0], [0x09, 0xa8], [0x80, 0]] := by decide +kernel

theorem test_canon_signByte : [0, 1, 127, 128, 255, 256, 2472, 32768].map (canon .signByte) =
    [[0], [1], [0x7f], [0, 0x80], [0, 0xff], [1, 0], [0x09, 0xa8], [0, 0x80, 0]] := by decide +kernel

/-- The last rows of K-2: lengths of `canon` under both readings at the edge of 256 bytes. -/
theorem test_canon_length_edge : [2 ^ 2040 - 1, 2 ^ 2040, 2 ^ 2047, 2 ^ 2048].map (fun c =>
    ((canon .minUnsigned c).length, (canon .signByte c).length, (fmt256 (canon .signByte c)).length)) =
    [(255, 256, 256), (256, 256, 256), (256, 257, 256), (257, 257, 256)] := by decide +kernel

/-! ### `RSA_ENC`: R-1, R-2, R-7 -/

/-- Vector R-1: `N` = 3233, `E` = 17, `IN` = 41, the injected tail 01..fe. -/
def stateR1 : State := { withOps (rsaOps [0x0c, 0xa1] [0x11] [0x41]) with injected := run 1 254 }

theorem test_rsaEnc_R1 : ∃ t, exec .rsaEnc stateR1 = .next t ∧ t.out = [0x09, 0xa8] ∧
    statusWord t.status = 0x01 ∧ t.operands = .zero ∧ t.injected = [] := by
  rcases execRsaEnc_cases stateR1 with ⟨h, -⟩ | ⟨-, -, h, -⟩ | ⟨-, -, -, h⟩
  · exact absurd h (by decide +kernel)
  · exact absurd h (by decide +kernel)
  · refine ⟨_, h, ?_, rfl, rfl, by decide +kernel⟩
    rw [State.succeed_out]
    generalize Config.canonMode = m
    cases m <;> decide +kernel

/-- Vector R-2: a full-size modulus and `E` = 65537; under `SIGN_BYTE` the truncation removes the sign byte. -/
theorem test_rsaResult_R2 : ∀ m, rsaResult m (run 0 255) 65537 (2 ^ 2048 - 2 ^ 1024 - 1) = int2be
    (0xc00f9a7b06c6bd08f0aa550d862ad18b41f13237557a1cefd9a8bd1e9a689893f81ead92425b49f1ccfc5794c3104441208e60932f6ec3afb4cbea808a1eae047ceb8cfe1e5bd7f3bdc491e9e2aeb7495646862658e5259c8d75da32dd55e46504f7dbc1f0275364c1210882352e8cd6c757f6517961926de0c2d010b8c39fbb7763597ca6e01c1eda143fa21554bce019e3875f4b65ed4e3b06864a65c1416368a899ea176deca74ae3ecad5a20fde497acbfc54dc0b8f126fcbd08669784722e2a3258de8cfefc29d92fcc98833b4b14adb99c90d68304b5a6a366c99a28446d128149a698d4a464bf7e5037c747d2cc35d099541d132ebd95cdb9869246a3)
    256 := by
  intro m
  rw [rsaResult, modexp, ← powModFast_eq _ 17 _ _ (by decide)]
  cases m <;> decide +kernel

/-- Vector R-7: a modulus above 2048 bits, where the significant high byte is lost. -/
theorem test_rsaResult_R7 : ∀ m, rsaResult m (List.replicate 255 0xff) 2 (2 ^ 2056 - 1) =
    [0xfe, 0x00, 0x01] ++ List.replicate 253 0 := by
  intro m; cases m <;> decide +kernel

/-! ### `IGE_ENC`, `IGE_DEC`: I-2, I-6 and the wrong-halves check of I-1 -/

/-- Vector I-2, with the cipher known at the values the vector lists for `T` and `U`. -/
theorem test_igeEncrypt_I2 :
    (igeEncrypt (known [(0x20202020202020202020202020202020, 0x72d75c294159fac28a43f67c6e07ee4b),
        (0x52f77c096179dae2aa63d65c4e27ce6b, 0xee38bd57e7de31bcd74857fdb80df2a6),
        (0xce189d77c7fe119cf76877dd982dd286, 0x67e61a21688b8556d424d2f4cf036859)])
      (blk 0x202122232425262728292a2b2c2d2e2f) (blk 0x303132333435363738393a3b3c3d3e3f) (run 0 48)).acc =
    int2be 0x42e66e1a756cccf5b27acc47523ad074ee39bf54e3db37bbdf415df6b400fca977f708327c9e9341cc3dc8efd31e7646
      48 := by decide +kernel

/-- The toy cipher of I-6 and its inverse. -/
def toyEnc (k : Bytes) (x : Block) : Block :=
  ⟨(List.range 16).map fun j => x.val.getD ((j + 1) % 16) 0 ^^^ k.getD j 0, by simp⟩

def toyDec (k : Bytes) (y : Block) : Block :=
  ⟨(List.range 16).map fun j => y.val.getD ((j + 15) % 16) 0 ^^^ k.getD ((j + 15) % 16) 0, by simp⟩

theorem test_igeEncrypt_I6 : (igeEncrypt (toyEnc (run 0 32)) (blk 0x202122232425262728292a2b2c2d2e2f)
    (blk 0x303132333435363738393a3b3c3d3e3f) (run 0 32)).acc =
    List.replicate 16 0x10 ++ run 1 15 ++ [0] := by decide +kernel

theorem test_igeDecrypt_I6 : (igeDecrypt (toyDec (run 0 32)) (blk 0x202122232425262728292a2b2c2d2e2f)
    (blk 0x303132333435363738393a3b3c3d3e3f) (List.replicate 16 0x10 ++ run 1 15 ++ [0])).acc = run 0 32 := by
  decide +kernel

/-- Vector I-8, two zero blocks decrypted. -/
theorem test_igeDecrypt_I8 :
    (igeDecrypt (known [(0x303132333435363738393a3b3c3d3e3f, 0x6769b7ba936490b26fe31350c36270c9),
        (0x47489599b741b69547ca397bef4f5ee6, 0x5d5e83ba93ff711cb6625e7e2d8b6aab)])
      (blk 0x202122232425262728292a2b2c2d2e2f) (blk 0x303132333435363738393a3b3c3d3e3f)
      (List.replicate 32 0)).acc =
    int2be 0x47489599b741b69547ca397bef4f5ee65d5e83ba93ff711cb6625e7e2d8b6aab 32 := by decide +kernel

/-- The padding of I-3: 20 bytes and the injected f0..fb. -/
theorem test_igePadding_I3 : { withOps (igeOps [] [] (run 0x40 20)) with injected := run 0xf0 12 }.padded
    (igePadLen 20) = run 0x40 20 ++ run 0xf0 12 := by decide +kernel

/-! ### Host accesses: Q-4, and the halves of the IV -/

theorem test_operand_space_reads_zero : ∃ t, step { withOps (igeOps [0x11] [] []) with pending := [.read 3 0] } =
    .next t ∧ t.replies = [.byte 0] := ⟨_, rfl, rfl⟩

theorem test_iv_halves : (igeOps [] (run 0x20 32) []).ivCipher0 = blk 0x202122232425262728292a2b2c2d2e2f ∧
    (igeOps [] (run 0x20 32) []).ivPlain0 = blk 0x303132333435363738393a3b3c3d3e3f := by decide +kernel

theorem test_memory_canonical : Memory.wf (memWrite (memWrite (memWrite [] 5 1) 2 7) 5 0) ∧
    memWrite (memWrite (memWrite [] 5 1) 2 7) 5 0 = [(2, 7)] := by decide

/-! ### Scripts: the accesses of P-1 -/

theorem test_script_P1 : (State.reset.withScript ([.rng (run 1 254)] ++ rsaencCall [0x0c, 0xa1] [0x11] [0x41] 2)).pending =
    [.write 5 0 0x0c, .write 5 1 0xa1, .writeReg 4 2, .write 6 0 0x11, .writeReg 5 1, .write 1 0 0x41,
      .writeReg 2 1, .writeReg 0 1, .readReg 1, .readReg 3, .read 2 0, .read 2 1] := by decide

/-! ### Witnesses: states and operands that meet the hypotheses of each statement -/

theorem test_witness_ReservedCodeCompletesWithIllegalCommand :
    (withScript [.writeReg 0 0]).pending = .writeReg 0 (0x00 : Byte).toNat :: [] ∧
    (withScript [.writeReg 0 255]).pending = .writeReg 0 (0xff : Byte).toNat :: [] ∧
    (0x00 : Byte) ≠ 0x01 ∧ (0x04 : Byte) ≠ 0x03 ∧ (0xff : Byte) ≠ 0x02 := by decide

theorem test_witness_StepRunsTheDecodedCommand : (withScript [.writeReg 0 3]).pending = .writeReg 0 3 :: [] ∧
    3 < 256 ∧ decode (BitVec.ofNat 8 3) = .command .igeDec ∧ Instr.igeDec.wellFormed = true := by decide

theorem test_witness_DecodeAndEncodeAgree : Instr.rsaEnc.wellFormed = true ∧ Instr.igeEnc.wellFormed = true ∧
    Instr.igeDec.wellFormed = true := by decide

theorem test_witness_StepTakesTheNextAccess : (∃ t, step (withScript [.readReg 1]) = .next t) ∧
    State.reset.pending = [] := ⟨⟨_, rfl⟩, rfl⟩

/-- The edges of the contract: the last index of `KEY`, of the least `DATA_MAX` and of the least `MOD_MAX`; the last
register, the last command value. -/
theorem test_witness_contract_edges : byteInContract 4 31 ∧ ¬ byteInContract 4 32 ∧ byteInContract 1 255 ∧
    byteInContract 2 255 ∧ byteInContract 5 0 ∧ byteInContract 6 0 ∧ ¬ byteInContract 0 0 ∧
    ¬ byteInContract 7 0 ∧ Event.inContract (.readReg 5) ∧ ¬ Event.inContract (.readReg 6) ∧
    Event.inContract (.writeReg 0 255) ∧ ¬ Event.inContract (.writeReg 0 256) ∧
    Event.inContract (.writeReg 2 256) ∧ Event.inContract (.writeReg 3 256) ∧ ¬ Event.inContract (.writeReg 6 0) := by
  simp [byteInContract, Event.inContract, Cap.fits, Config.dataMax, Config.modMax, Config.expMax]

/-- Plaintexts of 1 and of 255 bytes under the modulus 3233: `RsaEncCompletes`, `RsaOutputValueAndLength` and the
accepted clauses of `RsaEncChecksLengthFirst` and `RsaEncRejectsZeroModulus`. -/
theorem test_witness_rsa_accepted : (rsaOps [0x0c, 0xa1] [0x11] [0x41]).inlen = 1 ∧
    (rsaOps [0x0c, 0xa1] [0x11] (run 0 255)).inlen = 255 ∧
    (rsaOps [0x0c, 0xa1] [0x11] [0x41]).modulusN = 3233 ∧
    memRead (rsaOps [0x0c, 0xa1] [0x11] [0x41]).modulus 0 ≠ 0 := by decide +kernel

theorem test_witness_RsaEncChecksLengthFirst : Operands.zero.inlen = 0 ∧
    256 ≤ (rsaOps [1] [1] (List.replicate 256 7)).inlen := by decide +kernel

/-- No modulus, and a modulus of three zero bytes. -/
theorem test_witness_RsaEncRejectsZeroModulus : (rsaOps [] [1] [7]).inlen = 1 ∧
    (∀ j, j < (rsaOps [] [1] [7]).modlen → memRead (rsaOps [] [1] [7]).modulus j = 0) ∧
    (∀ j, j < (rsaOps [0, 0, 0] [1] [7]).modlen → memRead (rsaOps [0, 0, 0] [1] [7]).modulus j = 0) := by
  decide

theorem test_witness_RsaPaddingLayout : (rsaOps [] [] [7]).inlen ≤ 255 ∧ 0 < (rsaOps [] [] [7]).inlen ∧
    253 < 255 - (rsaOps [] [] [7]).inlen := by decide

theorem test_witness_RsaDegenerateOperands : (rsaOps [1] [1] [7]).modulusN = 1 ∧
    ((rsaOps [2] [] [7]).exponentE = 0 ∧ (rsaOps [2] [] [7]).modulusN = 2) ∧
    1 ≤ (rsaOps [2] [1] [0]).exponentE ∧ (rsaOps [2] [1] [0]).modulusN ≠ 0 ∧
    (∀ j, j < (rsaOps [2] [1] [0]).inlen → memRead (rsaOps [2] [1] [0]).input j = 0) ∧
    ∀ k, k < 254 → { withOps (rsaOps [2] [1] [0]) with injected := List.replicate 254 0 }.rngByte k = 0 := by
  refine ⟨by decide, by decide, by decide, by decide, by decide, fun k hk => ?_⟩
  have h : (List.replicate 254 (0 : Byte))[k]? = some 0 := by rw [List.getElem?_replicate, if_pos hk]
  unfold State.rngByte
  simp only [h]

theorem test_witness_LeadingZerosOfTheKeyAreIgnored :
    (rsaOps [0, 0, 0x0c, 0xa1] [0, 0x11] [0x41]).inputSeq = (rsaOps [0x0c, 0xa1] [0x11] [0x41]).inputSeq ∧
    memSeq (rsaOps [0, 0, 0x0c, 0xa1] [0, 0x11] [0x41]).modulus 0 4 =
      List.replicate 2 0 ++ memSeq (rsaOps [0x0c, 0xa1] [0x11] [0x41]).modulus 0 2 ∧
    memSeq (rsaOps [0, 0, 0x0c, 0xa1] [0, 0x11] [0x41]).exponent 0 2 =
      List.replicate 1 0 ++ memSeq (rsaOps [0x0c, 0xa1] [0x11] [0x41]).exponent 0 1 ∧
    (∀ k, (withOps (rsaOps [0, 0, 0x0c, 0xa1] [0, 0x11] [0x41])).rngByte k =
      (withOps (rsaOps [0x0c, 0xa1] [0x11] [0x41])).rngByte k) :=
  ⟨by decide, by decide, by decide, fun _ => rfl⟩

theorem test_witness_FixedWidthEncodingIsUnique : 2472 < 256 ^ 2 ∧ ([0x09, 0xa8] : Bytes).length = 2 ∧
    be2int [0x09, 0xa8] = 2472 ∧ 255 < 256 ^ 1 := by decide

theorem test_witness_BlockView : (run 0 32).length % 16 = 0 ∧ 1 < (run 0 32).length / 16 := by decide

theorem test_witness_IgePaddingLayout : (igeOps [] [] (run 0 16)).inlen % 16 = 0 ∧
    (igeOps [] [] (run 0 17)).inlen + 14 < 16 * ((17 + 15) / 16) := by decide +kernel

/-- Lengths 0 and 16 for the accepted clauses of `IGE_DEC`, 1 and 17 for the rejected one. -/
theorem test_witness_igeDec_lengths : (igeOps [] [] []).inlen % 16 = 0 ∧
    (igeOps [] [] (run 0 16)).inlen % 16 = 0 ∧ (igeOps [] [] [5]).inlen % 16 ≠ 0 ∧
    (igeOps [] [] (run 0 17)).inlen % 16 ≠ 0 := by decide +kernel

theorem memRead_foldl (l : List (Byte × Nat)) (m : Memory) (hm : m.wf) (j : Nat)
    (h : ∀ x ∈ l, x.2 ≠ j) : memRead (l.foldl (fun m x => memWrite m x.2 x.1) m) j = memRead m j := by
  induction l generalizing m with
  | nil => rfl
  | cons x l ih =>
    rw [List.foldl_cons, ih _ (memWrite_wf hm _ _) fun y hy => h y (by simp [hy]), memRead_memWrite hm,
      if_neg (Ne.symm (h x (by simp)))]

theorem memRead_zipIdx (B : Bytes) (n : Nat) (m : Memory) (hm : m.wf) (j : Nat) (hj : j < B.length) :
    memRead ((B.zipIdx n).foldl (fun m x => memWrite m x.2 x.1) m) (n + j) = B[j] := by
  induction B generalizing n m j with
  | nil => simp at hj
  | cons b B ih =>
    rw [List.zipIdx_cons, List.foldl_cons]
    cases j with
    | zero =>
      rw [memRead_foldl _ _ (memWrite_wf hm _ _) _ fun x hx => ?_, memRead_memWrite hm]
      · simp
      · have := List.mem_zipIdx hx; omega
    | succ j =>
      have := ih (n + 1) _ (memWrite_wf hm n b) j (by simpa using hj)
      rw [show n + (j + 1) = n + 1 + j by omega]
      simpa using this

/-- Any byte sequence can be loaded as an input sequence. -/
theorem inputSeq_load (o : Operands) (B : Bytes) :
    { o with inlen := B.length, input := load B }.inputSeq = B := by
  apply List.ext_getElem
  · simp
  · intro j h1 h2
    have := memRead_zipIdx B 0 [] wf_nil j h2
    simpa [Operands.inputSeq, memSeq, load] using this

/-- One block encrypted, and the ciphertext loaded again under the same key and IV: `IgeRoundTrip`. -/
theorem test_witness_IgeRoundTrip : ∃ t, exec .igeEnc (withOps (igeOps (run 0 32) (run 0x20 32) (run 0 16))) = .next t ∧
    t.out.length = 16 ∧
    let u := withOps { igeOps (run 0 32) (run 0x20 32) [] with inlen := t.out.length, input := load t.out }
    u.operands.inputSeq = t.out ∧ u.operands.keyK = (igeOps (run 0 32) (run 0x20 32) (run 0 16)).keyK :=
  ⟨_, rfl, by rw [State.succeed_out, igeEncrypt_acc, concatBlocks_length, encOut_length, blocks_length, padded_length]; rfl,
    inputSeq_load _ _, rfl⟩

/-- The same for `IgeConverseRoundTrip`. -/
theorem test_witness_IgeConverseRoundTrip :
    ∃ t, exec .igeDec (withOps (igeOps (run 0 32) (run 0x20 32) (run 0 16))) = .next t ∧ t.out.length = 16 ∧
    let u := withOps { igeOps (run 0 32) (run 0x20 32) [] with inlen := t.out.length, input := load t.out }
    u.operands.inputSeq = t.out ∧ u.operands.keyK = (igeOps (run 0 32) (run 0x20 32) (run 0 16)).keyK :=
  ⟨_, rfl, by rw [State.succeed_out, igeDecrypt_acc, concatBlocks_length, decOut_length, blocks_length, inputSeq_length]; rfl,
    inputSeq_load _ _, rfl⟩

/-- Two ciphertexts of two blocks that differ in the second only. -/
theorem test_witness_IgeErrorLocality :
    (igeOps [] [] (run 0 32)).inlen % 16 = 0 ∧ 1 < (igeOps [] [] (run 0 32)).inlen / 16 ∧
    (∀ j, j ≠ 1 → blockAt (igeOps [] [] (run 0 31 ++ [0])).inputSeq j =
      blockAt (igeOps [] [] (run 0 32)).inputSeq j) ∧
    blockAt (igeOps [] [] (run 0 31 ++ [0])).inputSeq 1 ≠ blockAt (igeOps [] [] (run 0 32)).inputSeq 1 := by
  refine ⟨by decide +kernel, by decide +kernel, fun j hj => ?_, by decide +kernel⟩
  rcases Nat.lt_or_ge j 1 with h | h
  · rw [show j = 0 by omega]; decide +kernel
  · apply Subtype.ext
    rw [blockAt_val_eq, blockAt_val_eq]
    apply List.map_congr_left
    intro k _
    rw [List.getD_eq_default _ _ (by rw [inputSeq_length]; simp [igeOps, run]; omega),
      List.getD_eq_default _ _ (by rw [inputSeq_length]; simp [igeOps, run]; omega)]

theorem test_witness_ZeroIvFirstBlock : 1 ≤ (igeOps (run 0 32) [] [5]).inlen ∧
    ∀ j, j < 32 → memRead (igeOps (run 0 32) [] [5]).iv j = 0 := by decide

theorem test_witness_ChainingLoopInvariant : 0 ≤ (run 0 32).length / 16 ∧ 2 ≤ (run 0 32).length / 16 := by decide

/-- A successful outcome of each command and a failed one: `PortRequestsInOrder`, `RandomStreamAdvances`,
`ErrorsArePrecise`, `ErrorRecordGrowsOnErrorsOnly`, `NextCommandAfterResetOrCompletion`. -/
theorem test_witness_outcomes : (∃ t, exec .rsaEnc stateR1 = .next t ∧ statusErr t.status = false) ∧
    (∃ t, exec .igeEnc State.reset = .next t ∧ statusErr t.status = false) ∧
    (∃ t, exec .igeDec State.reset = .next t ∧ statusErr t.status = false) ∧
    ∃ t, issueCommand exec 0x01 State.reset = .next t ∧ statusErr t.status = true := by
  obtain ⟨t, h, -, hs, -⟩ := test_rsaEnc_R1
  refine ⟨⟨t, h, ?_⟩, ⟨_, rfl, rfl⟩, ⟨_, rfl, rfl⟩, ⟨_, rfl, rfl⟩⟩
  rcases ht : t.status with _ | _ | e
  · rfl
  · rfl
  · rw [ht] at hs; cases e <;> exact absurd hs (by decide)

/-- A read after a completion: `DoneStaysSet`, `OnlyCompletionsWriteStatusAndOut`. -/
theorem test_witness_accesses : ∃ t, step { withScript [.readReg 1] with status := .success } = .next t ∧
    Event.readReg 1 ≠ .reset ∧ (Event.readReg 1).issues = false ∧ statusDone Status.success = true :=
  ⟨_, rfl, by decide, rfl, rfl⟩

/-- States that differ in `STATUS` and `OUT` but not in operands or stream. -/
theorem test_witness_OutcomeDependsOnlyOnOperandsAndDraw :
    stateR1.operands = { stateR1 with status := .success, out := [1] }.operands ∧
    ∀ k, stateR1.rngByte k = { stateR1 with status := .success, out := [1] }.rngByte k := ⟨rfl, fun _ => rfl⟩

/-- Inputs that differ above `INLEN` only: `CommandsReadOnlyTheirOperands`. -/
theorem test_witness_CommandsReadOnlyTheirOperands :
    { igeOps [] [] (run 0 16) with input := load (run 0 32) }.inputSeq = (igeOps [] [] (run 0 16)).inputSeq ∧
    { igeOps [] [] (run 0 16) with input := load (run 0 32) } ≠ igeOps [] [] (run 0 16) := by decide +kernel

/-- Writes to `KEY` at its last index and to `OUT` at index 0, in a state with the invariant. -/
theorem test_witness_HostWriteStoresOneByte : (withScript [.write 3 31 5]).operands.Ok ∧ byteInContract 3 31 ∧
    byteInContract 2 0 := ⟨zero_ok, .inr (.inl (by decide)), .inl (by decide)⟩

/-- Reads of `OUT` below and above `OUTLEN`, and of `KEY`. -/
theorem test_witness_HostReadReturnsOutOnly :
    (∃ t, step { withScript [.read 2 0] with out := [7] } = .next t ∧ t.replies = [.byte 7]) ∧
    (∃ t, step { withScript [.read 2 1] with out := [7] } = .next t ∧ t.replies = [.byte 0]) ∧
    byteInContract 3 0 := ⟨⟨_, rfl, rfl⟩, ⟨_, rfl, rfl⟩, .inr (.inl (by decide))⟩

theorem test_witness_HostWriteRegister : Config.dataMax.fits 256 = true ∧ Config.modMax.fits 1 = true ∧
    Config.expMax.fits 1 = true ∧ Config.dataMax.fits 5 = true ∧
    (withScript [.writeReg 3 5]).pending = .writeReg 3 5 :: [] ∧
    (withScript [.writeReg 1 255]).pending = .writeReg 1 255 :: [] := by
  simp [Cap.fits, Config.dataMax, Config.modMax, Config.expMax, withScript]

theorem test_witness_WritesToStatusAndOutlen :
    (withScript [.writeReg 1 999]).pending = .writeReg 1 999 :: [] ∧
    (withScript [.writeReg 3 256]).pending = .writeReg 3 256 :: [] := ⟨rfl, rfl⟩

theorem test_witness_HostReadRegister :
    (∃ t, step { withScript [.readReg 3] with out := [7, 8] } = .next t ∧ t.replies = [.value 2]) ∧
    (∃ t, step (withScript [.readReg 0]) = .next t ∧ t.replies = [.value 0]) := ⟨⟨_, rfl, rfl⟩, ⟨_, rfl, rfl⟩⟩

/-- States that look the same to the host and hold different keys. -/
theorem test_witness_AccessesRevealNoOperandByte :
    SameForHost { withOps (igeOps [1] [] []) with pending := [.read 3 0] }
      { withOps (igeOps [2] [] []) with pending := [.read 3 0] } ∧
    igeOps [1] [] [] ≠ igeOps [2] [] [] ∧
    (∃ t, step { withOps (igeOps [1] [] []) with pending := [.read 3 0] } = .next t) :=
  ⟨⟨rfl, rfl, rfl, rfl, rfl, rfl, rfl⟩, by decide, _, rfl⟩

theorem test_witness_ResetEventRestoresResetState : (withScript [.reset]).pending = .reset :: [] := rfl

/-- A state with the invariant, operands loaded, from which a step answers a next state: `StepKeepsStateOk`. -/
theorem test_witness_StepKeepsStateOk : (withScript [.write 3 31 5]).Ok ∧
    ∃ t, step (withScript [.write 3 31 5]) = .next t ∧ t.operands.key = [(31, 5)] :=
  ⟨⟨zero_ok, Cap.fits_of_le_least (Nat.zero_le _)⟩, _, rfl, rfl⟩

/-- Steps that end a command with an error, end one with success and issue none: `ErrorRecordGrowsOnErrorsOnly`. -/
theorem test_witness_ErrorRecordGrowsOnErrorsOnly :
    (∃ t, step (withScript [.writeReg 0 1]) = .next t ∧ t.status = .failed .invalidInput) ∧
    (∃ t, step (withScript [.writeReg 0 2]) = .next t ∧ statusErr t.status = false) ∧
    ∃ t, step (withScript [.readReg 1]) = .next t ∧ Event.issues (.readReg 1) = false :=
  ⟨⟨_, rfl, rfl⟩, ⟨_, rfl, rfl⟩, ⟨_, rfl, rfl⟩⟩

/-- Records that are not empty: `StepKeepsPortRequestsLegal`, `StepKeepsErrorRecorded`. -/
theorem test_witness_records :
    (∀ r ∈ [PortRequest.rng 254, .modexp 5 17 1], r.legal) ∧
    { State.reset with status := .failed .invalidKey, errors := [.invalidInput, .invalidKey] }.errorRecorded ∧
    ∃ t, step { withScript [.writeReg 0 1] with requests := [.rng 254, .modexp 5 17 1] } = .next t := by
  refine ⟨?_, ?_, _, rfl⟩
  · intro r hr
    simp only [List.mem_cons, List.not_mem_nil, or_false] at hr
    rcases hr with rfl | rfl
    · simp [PortRequest.legal]
    · exact ⟨(by decide : 5 < 2 ^ 3).trans_le (Nat.pow_le_pow_right (by decide) (by decide)), le_refl 1⟩
  · intro e he; cases he; rfl

/-- A script that loads two bytes: `LoadedInputIsTheInputSequence`. -/
theorem test_witness_LoadedInputIsTheInputSequence : (State.reset.withScript (ldin [7, 8])).operands.Ok ∧
    Config.dataMax.fits ([7, 8] : Bytes).length = true ∧
    (State.reset.withScript (ldin [7, 8])).pending = [.write 1 0 7, .write 1 1 8, .writeReg 2 2] ++ [] :=
  ⟨zero_ok, Cap.fits_of_le_least (by decide), by decide⟩

end Sys2Proof.Tests
end

/-! The bound of each configured capacity, and that it is a legal value (00_scope.md R8). -/

namespace Sys2Proof

/-- The bound a capacity puts on a number of bytes, `none` where it puts none. -/
def Cap.bound (c : Cap) : Option Nat := c.more.map (c.least + ·)

/-- What fits a capacity is exactly what is at most its bound. -/
theorem Cap.fits_iff_le_bound (c : Cap) (n : Nat) : c.fits n = true ↔ ∀ k, c.bound = some k → n ≤ k := by
  cases e : c.more with
  | none => simp [Cap.bound, e, Cap.fits_of_none e n]
  | some m => simp [Cap.bound, e, Cap.fits_of_some e n]

theorem Cap.least_le_bound {c : Cap} {k : Nat} (h : c.bound = some k) : c.least ≤ k := by
  obtain ⟨m, -, rfl⟩ := Option.map_eq_some_iff.mp h
  exact Nat.le_add_right c.least m

/-- A bound of `DATA_MAX` is a whole number of blocks: 16 of them and the further ones. -/
theorem dvd_dataMax_bound {k : Nat} (h : Config.dataMax.bound = some k) : 16 ∣ k := by
  obtain ⟨m, hm, rfl⟩ := Option.map_eq_some_iff.mp h
  obtain ⟨blocks, -, rfl⟩ := Option.map_eq_some_iff.mp hm
  exact Nat.dvd_add (by decide : 16 ∣ 256) (Nat.dvd_mul_right 16 blocks)

/-- Settles O47: the bound of each capacity is the legal value asked for. -/
theorem capacitiesAreLegal : Obligations.CapacitiesAreLegal :=
  ⟨⟨Config.dataMax.bound, fun _ h => ⟨dvd_dataMax_bound h, Cap.least_le_bound h⟩, Cap.fits_iff_le_bound _⟩,
    ⟨Config.modMax.bound, fun _ h => Cap.least_le_bound h, Cap.fits_iff_le_bound _⟩,
    ⟨Config.expMax.bound, fun _ h => Cap.least_le_bound h, Cap.fits_iff_le_bound _⟩⟩

end Sys2Proof

/-! The invariant of the state (10_state.md R18, R19, R32): at reset, at every completion, after every step. -/

namespace Sys2Proof.Machine

/-- The output of encryption is as long as the input's whole blocks. -/
@[simp] theorem igeEncrypt_acc_length (E : Block → Block) (c0 p0 : Block) (X : Bytes) :
    (igeEncrypt E c0 p0 X).acc.length = 16 * (X.length / 16) := by simp [igeEncrypt_acc]

/-- The output of decryption is as long as the input's whole blocks. -/
@[simp] theorem igeDecrypt_acc_length (D : Block → Block) (c0 p0 : Block) (X : Bytes) :
    (igeDecrypt D c0 p0 X).acc.length = 16 * (X.length / 16) := by simp [igeDecrypt_acc]

theorem rsaResult_length_le (mode : Canon) (mbuf : Bytes) (E N : Nat) :
    (rsaResult mode mbuf E N).length ≤ 256 := by
  rw [rsaResult, fmt256_length]
  exact Nat.min_le_right _ _

theorem reset_ok : State.reset.Ok := ⟨zero_ok, dataMax_fits_256 (Nat.zero_le _)⟩

theorem platformReset_ok (s : State) : s.platformReset.Ok := ⟨zero_ok, dataMax_fits_256 (Nat.zero_le _)⟩

/-- An error completion leaves `OUT`, so it stays within `DATA_MAX`. -/
theorem fail_ok {s : State} (h : s.Ok) (e : CmdError) : (s.fail e).Ok := ⟨zero_ok, h.out⟩

/-- A result within `DATA_MAX` is all a successful completion needs. -/
theorem succeed_ok (s : State) {B : Bytes} (hB : Config.dataMax.fits B.length = true) : (s.succeed B).Ok :=
  ⟨zero_ok, hB⟩

/-- No command produces an output beyond `DATA_MAX`: `RSA_ENC` at most 256 bytes, `IGE_ENC` the input padded to
whole blocks, `IGE_DEC` no more than the input. -/
theorem exec_keeps_ok {i : Instr} {s t : State} (h : s.Ok) (ht : exec i s = .next t) : t.Ok := by
  have hin := h.operands.inlen
  cases i with
  | rsaEnc =>
    rcases execRsaEnc_cases s with ⟨-, he⟩ | ⟨-, -, -, he⟩ | ⟨-, -, -, he⟩ <;> cases he.symm.trans ht
    · exact fail_ok h _
    · exact fail_ok h _
    · exact succeed_ok _ (dataMax_fits_256 (rsaResult_length_le _ _ _ _))
  | igeEnc =>
    cases ht
    refine succeed_ok _ ?_
    rw [igeEncrypt_acc_length, padded_length, igePadLen_add, Nat.mul_div_cancel_left _ (by decide)]
    exact dataMax_fits_padded hin
  | igeDec =>
    rcases execIgeDec_cases s with ⟨-, he⟩ | ⟨-, he⟩ <;> cases he.symm.trans ht
    · exact fail_ok h _
    · refine succeed_ok _ ?_
      rw [igeDecrypt_acc_length, inputSeq_length]
      exact Cap.fits_mono (Nat.mul_div_le _ _) hin

theorem issueCommand_keeps_ok {v : Byte} {s t : State} (h : s.Ok) (ht : issueCommand exec v s = .next t) :
    t.Ok := by
  rcases issueCommand_cases v s with ⟨i, -, he⟩ | ⟨-, -, -, he⟩
  · exact exec_keeps_ok h (he ▸ ht)
  · cases he.symm.trans ht
    exact fail_ok h _

/-- The lengths may take any value within their ranges. -/
theorem withLengths_ok {o : Operands} (h : o.Ok) {n m e : Nat} (hn : Config.dataMax.fits n = true)
    (hm : Config.modMax.fits m = true) (he : Config.expMax.fits e = true) :
    Operands.Ok { o with inlen := n, modlen := m, explen := e } :=
  ⟨fun S => by have := h.spaces S; cases S <;> exact this, hn, hm, he⟩

/-- Every access that answers a next state keeps the invariant. -/
theorem AccessDone.keeps_ok {s t : State} {e : Event} (hd : AccessDone s e t) (h : s.Ok) : t.Ok := by
  obtain ⟨-, inlen, modlen, explen⟩ := h.operands
  cases hd with
  | write space i b S hS hr hi => exact ⟨store_ok h.operands S b hi, h.out⟩
  | read => exact ⟨h.operands, h.out⟩
  | inlen v hv => exact ⟨withLengths_ok h.operands hv modlen explen, h.out⟩
  | modlen v hv => exact ⟨withLengths_ok h.operands inlen hv explen, h.out⟩
  | explen v hv => exact ⟨withLengths_ok h.operands inlen modlen hv, h.out⟩
  | readOnly => exact h
  | readReg => exact ⟨h.operands, h.out⟩
  | reset => exact platformReset_ok s
  | failed v hv e he => exact fail_ok h e
  | succeeded v hv n rs B he => exact issueCommand_keeps_ok h he

theorem withPending_ok {s : State} (h : s.Ok) (es : List Event) : (s.withPending es).Ok :=
  ⟨h.operands, h.out⟩

/-- Settles O51: cleared operands and an empty output meet the invariant. -/
theorem resetStateIsOk : Obligations.ResetStateIsOk := reset_ok

/-- Settles O52: an idle step changes nothing, every other one carries out an access. -/
theorem stepKeepsStateOk : Obligations.StepKeepsStateOk := by
  intro s t h ht
  rcases step_next ht with ⟨-, rfl⟩ | ⟨e, rest, -, hd⟩
  · exact h
  · exact hd.keeps_ok (withPending_ok h rest)

end Sys2Proof.Machine

/-! The host's contract (20_memory.md R59): `AccessDone` is all an access can do, and within the contract one of its
cases is always met. -/

namespace Sys2Proof.Machine

theorem hostWrite_of_fits {space i : Nat} {S : Space} (hS : spaceOfId space = some S) (hr : S ≠ .reg)
    (hi : (spaceCapacity S).fits (i + 1) = true) (b : Byte) (s : State) :
    hostWrite space i b s = .next (s.withOperands (s.operands.store S i b)) := by
  cases S <;> simp_all [hostWrite]

theorem hostRead_of_fits {space i : Nat} {S : Space} (hS : spaceOfId space = some S) (hr : S ≠ .reg)
    (hi : (spaceCapacity S).fits (i + 1) = true) (s : State) :
    hostRead space i s = .next (s.withReply (.byte (s.spaceByte S i))) := by
  cases S <;> simp_all [hostRead]

/-- The converse of `access_next`: what `AccessDone` says is done is what the access answers. -/
theorem AccessDone.access_eq {s t : State} {e : Event} (hd : AccessDone s e t) : access exec e s = .next t := by
  cases hd with
  | write space i b S hS hr hi => exact hostWrite_of_fits hS hr hi b s
  | read space i S hS hr hi => exact hostRead_of_fits hS hr hi s
  | inlen v hv => exact if_pos hv
  | modlen v hv => exact if_pos hv
  | explen v hv => exact if_pos hv
  | readOnly r v hr =>
    rcases hr with rfl | ⟨rfl, hv⟩
    · rfl
    · exact if_pos hv
  | readReg r R hR => simp only [access, hostReadReg, hR]
  | reset => rfl
  | failed v hv e he => exact (if_pos (decide_eq_true hv)).trans he
  | succeeded v hv n rs B he => exact (if_pos (decide_eq_true hv)).trans he

theorem AccessDone.step_eq {s t : State} {e : Event} {rest : List Event} (hp : s.pending = e :: rest)
    (hd : AccessDone (s.withPending rest) e t) : step s = .next t := by
  simp only [step, hp, hd.access_eq]

/-- A step that finds an access answers a next state only by carrying it out. -/
theorem accessDone_of_step {s t : State} {e : Event} {rest : List Event} (ht : step s = .next t)
    (hp : s.pending = e :: rest) : AccessDone (s.withPending rest) e t := by
  simp only [step, hp] at ht
  exact access_next ht

/-- The byte accesses of the contract are those to a space of bytes, below its capacity. -/
theorem byteInContract_iff (space i : Nat) : byteInContract space i ↔
    ∃ S, spaceOfId space = some S ∧ S ≠ .reg ∧ (spaceCapacity S).fits (i + 1) = true := by
  have h32 : Cap.fits ⟨32, some 0⟩ (i + 1) = true ↔ i < 32 :=
    Cap.fits_of_some (c := ⟨32, some 0⟩) rfl (i + 1)
  rcases spaceOfId_eq space with ⟨rfl, h⟩ | ⟨rfl, h⟩ | ⟨rfl, h⟩ | ⟨rfl, h⟩ | ⟨rfl, h⟩ | ⟨rfl, h⟩ | ⟨rfl, h⟩ |
    ⟨hn, h⟩
  case inr.inr.inr.inr.inr.inr.inr =>
    simp only [byteInContract, h, reduceCtorEq, false_and, exists_false, iff_false]
    omega
  all_goals simp [byteInContract, h, spaceCapacity, h32]

/-- The registers are numbered 0 to 5. -/
theorem exists_regOfNumber_iff (r : Nat) : (∃ R, regOfNumber r = some R) ↔ r ≤ 5 := by
  rcases regOfNumber_eq r with ⟨rfl, h⟩ | ⟨rfl, h⟩ | ⟨rfl, h⟩ | ⟨rfl, h⟩ | ⟨rfl, h⟩ | ⟨rfl, h⟩ | ⟨hr, h⟩
  case inr.inr.inr.inr.inr.inr =>
    simp only [h, reduceCtorEq, exists_false, false_iff]
    omega
  all_goals simp [h]

/-- An access that was carried out was within the contract. -/
theorem AccessDone.inContract {s t : State} {e : Event} (hd : AccessDone s e t) : e.inContract := by
  cases hd with
  | write space i b S hS hr hi => exact (byteInContract_iff space i).mpr ⟨S, hS, hr, hi⟩
  | read space i S hS hr hi => exact (byteInContract_iff space i).mpr ⟨S, hS, hr, hi⟩
  | inlen v hv => simp [Event.inContract, hv]
  | modlen v hv => simp [Event.inContract, hv]
  | explen v hv => simp [Event.inContract, hv]
  | readOnly r v hr => rcases hr with rfl | ⟨rfl, hv⟩ <;> simp [Event.inContract, *]
  | readReg r R hR => exact (exists_regOfNumber_iff r).mp ⟨R, hR⟩
  | reset => trivial
  | failed v hv e he => exact .inl ⟨rfl, hv⟩
  | succeeded v hv n rs B he => exact .inl ⟨rfl, hv⟩

/-- An access within the contract can be carried out in every state. -/
theorem exists_accessDone {e : Event} (h : e.inContract) (s : State) : ∃ t, AccessDone s e t := by
  cases e with
  | write space i b =>
    obtain ⟨S, hS, hr, hi⟩ := (byteInContract_iff space i).mp h
    exact ⟨_, .write space i b S hS hr hi⟩
  | read space i =>
    obtain ⟨S, hS, hr, hi⟩ := (byteInContract_iff space i).mp h
    exact ⟨_, .read space i S hS hr hi⟩
  | writeReg r v =>
    rcases h with ⟨rfl, hv⟩ | rfl | ⟨rfl | rfl, hv⟩ | ⟨rfl, hv⟩ | ⟨rfl, hv⟩
    · rcases issueCommand_completes (BitVec.ofNat 8 v) s with ⟨e, he⟩ | ⟨n, rs, B, hB⟩
      · exact ⟨_, .failed v hv e he⟩
      · exact ⟨_, .succeeded v hv n rs B hB⟩
    · exact ⟨s, .readOnly 1 v (.inl rfl)⟩
    · exact ⟨_, .inlen v hv⟩
    · exact ⟨s, .readOnly 3 v (.inr ⟨rfl, hv⟩)⟩
    · exact ⟨_, .modlen v hv⟩
    · exact ⟨_, .explen v hv⟩
  | readReg r =>
    obtain ⟨R, hR⟩ := (exists_regOfNumber_iff r).mpr h
    exact ⟨_, .readReg r R hR⟩
  | reset => exact ⟨_, .reset⟩

/-- Settles O6: a step carries out the next access exactly when the contract admits it. -/
theorem onlyAccessesOutsideTheContractStop : Obligations.OnlyAccessesOutsideTheContractStop := by
  intro s
  constructor
  · rintro ⟨t, ht⟩ e rest hp
    exact (accessDone_of_step ht hp).inContract
  · intro h
    cases hp : s.pending with
    | nil => exact ⟨s, by simp only [step, hp]⟩
    | cons e rest =>
      obtain ⟨t, hd⟩ := exists_accessDone (h e rest hp) (s.withPending rest)
      exact ⟨t, hd.step_eq hp⟩

end Sys2Proof.Machine

/-! Accesses that issue no command: what they leave as it was (10_state.md R17, R30), and what the host learns by
them (R19). -/

namespace Sys2Proof.Machine

/-- Without a command and without `RESET`, `STATUS`, `OUT`, the record of errors and the ports stay. -/
theorem AccessDone.frame_of_not_issues {s t : State} {e : Event} (hd : AccessDone s e t)
    (hi : e.issues = false) (hr : e ≠ .reset) :
    t.status = s.status ∧ t.out = s.out ∧ t.errors = s.errors ∧ PortsUntouched s t := by
  cases hd with
  | write | read | inlen | modlen | explen | readOnly | readReg => exact ⟨rfl, rfl, rfl, rfl, rfl, rfl⟩
  | reset => exact absurd rfl hr
  | failed | succeeded => cases hi

/-- An issued command has completed, so `DONE` is set. -/
theorem AccessDone.done_of_issues {s t : State} {e : Event} (hd : AccessDone s e t) (hi : e.issues = true) :
    statusDone t.status = true := by
  cases hd with
  | failed | succeeded => rfl
  | readOnly r v hr => rcases hr with rfl | ⟨rfl, -⟩ <;> cases hi
  | write | read | inlen | modlen | explen | readReg | reset => cases hi

/-- Settles O37: such an access has done nothing to them. -/
theorem onlyCompletionsWriteStatusAndOut : Obligations.OnlyCompletionsWriteStatusAndOut := by
  intro s t e rest ht hp hi hr
  obtain ⟨hst, hout, herr, hports⟩ := (accessDone_of_step ht hp).frame_of_not_issues hi hr
  exact ⟨hst, hout, herr, hports.requests, hports.injected, hports.rngCursor⟩

/-- Settles O36: a command sets `DONE`, and every other access but `RESET` leaves `STATUS`. -/
theorem doneStaysSet : Obligations.DoneStaysSet := by
  intro s t e rest ht hp hr
  have hd := accessDone_of_step ht hp
  cases hi : e.issues with
  | true => simp [hd.done_of_issues hi]
  | false => simp [(hd.frame_of_not_issues hi hr).1]

/-- A register reads alike in two states that look the same to the host. -/
theorem SameForHost.regValue_eq {s s' : State} (h : SameForHost s s') (R : Reg) :
    s.regValue R = s'.regValue R := by
  obtain ⟨hst, hout, hin, hmod, hexp, -, -⟩ := h
  cases R <;> simp [State.regValue, hst, hout, hin, hmod, hexp]

/-- A byte of a space reads alike in two states that look the same to the host. -/
theorem SameForHost.spaceByte_eq {s s' : State} (h : SameForHost s s') (S : Space) (i : Nat) :
    s.spaceByte S i = s'.spaceByte S i := by
  cases S <;> simp [State.spaceByte, h.out]

theorem SameForHost.withPending {s s' : State} (h : SameForHost s s') (es : List Event) :
    SameForHost (s.withPending es) (s'.withPending es) :=
  { h with pending := rfl }

theorem SameForHost.withReply {s s' : State} (h : SameForHost s s') (r : Reply) :
    SameForHost (s.withReply r) (s'.withReply r) :=
  { h with replies := by simp [h.replies] }

/-- An access that issues no command does the same to what the host can see, whatever the operand bytes. -/
theorem AccessDone.alike {s s' t : State} {e : Event} (hd : AccessDone s e t) (h : SameForHost s s')
    (hi : e.issues = false) : ∃ t', AccessDone s' e t' ∧ SameForHost t t' := by
  cases hd with
  | write space i b S hS hr hfit =>
    exact ⟨_, .write space i b S hS hr hfit,
      { h with inlen := by simp [h.inlen], modlen := by simp [h.modlen], explen := by simp [h.explen] }⟩
  | read space i S hS hr hfit =>
    exact ⟨_, .read space i S hS hr hfit, h.spaceByte_eq S i ▸ h.withReply _⟩
  | inlen v hv => exact ⟨_, .inlen v hv, { h with inlen := rfl }⟩
  | modlen v hv => exact ⟨_, .modlen v hv, { h with modlen := rfl }⟩
  | explen v hv => exact ⟨_, .explen v hv, { h with explen := rfl }⟩
  | readOnly r v hr => exact ⟨s', .readOnly r v hr, h⟩
  | readReg r R hR => exact ⟨_, .readReg r R hR, h.regValue_eq R ▸ h.withReply _⟩
  | reset => exact ⟨_, .reset, { h with status := rfl, out := rfl, inlen := rfl, modlen := rfl, explen := rfl }⟩
  | failed | succeeded => cases hi

/-- Settles O46: the two steps carry out the same access. -/
theorem accessesRevealNoOperandByte : Obligations.AccessesRevealNoOperandByte := by
  intro s s' t e rest h hp hi ht
  obtain ⟨t', hd', h'⟩ := (accessDone_of_step ht hp).alike (h.withPending rest) hi
  exact ⟨t', hd'.step_eq (h.pending ▸ hp), h'⟩

end Sys2Proof.Machine

/-! The completion of a command: it consumes the operands (10_state.md R28), and its outcome is a function of
them and the random bytes (R27). -/

namespace Sys2Proof.Machine

/-- Every issued code completes, and its completion leaves the operands cleared. -/
theorem issueCommand_next_operands_zero (v : Byte) (s : State) :
    ∃ t, issueCommand exec v s = .next t ∧ t.operands = .zero := by
  rcases issueCommand_completes v s with ⟨e, h⟩ | ⟨n, rs, B, h⟩
  · exact ⟨_, h, rfl⟩
  · exact ⟨_, h, rfl⟩

theorem execRsaEnc_of_inlen_zero {s : State} (h : s.operands.inlen = 0) :
    execRsaEnc s = .next (s.fail .invalidInput) := if_pos (.inl h)

/-- With no input there is no block: nothing is drawn, nothing asked, and the output is empty. -/
theorem execIgeEnc_of_inlen_zero {s : State} (h : s.operands.inlen = 0) :
    execIgeEnc s = .next (s.succeed []) := by
  have hX : s.padded (igePadLen 0) = [] := List.eq_nil_of_length_eq_zero (by simp [h, igePadLen])
  simp only [execIgeEnc, h, hX]
  simp [igeEncrypt, blocks, chainStart, State.afterPad, State.withRequests, igePadLen]

theorem execIgeDec_of_inlen_zero {s : State} (h : s.operands.inlen = 0) :
    execIgeDec s = .next (s.succeed []) := by
  have hX : s.operands.inputSeq = [] := List.eq_nil_of_length_eq_zero (by simp [h])
  simp only [execIgeDec, h, hX]
  simp [igeDecrypt, blocks, chainStart, State.withRequests]

/-- Settles O31: a completion clears the operands, and a command that finds them cleared finds no input. -/
theorem everyCompletionConsumesOperands : Obligations.EveryCompletionConsumesOperands := by
  intro v s
  obtain ⟨t, ht, hz⟩ := issueCommand_next_operands_zero v s
  have h0 : t.operands.inlen = 0 := by rw [hz]; rfl
  refine ⟨t, ht, fun S j => by rw [hz, memRead_zero], h0, by rw [hz]; rfl, by rw [hz]; rfl, ?_, ?_, ?_⟩
  · exact ⟨_, execRsaEnc_of_inlen_zero h0, rfl, rfl⟩
  · exact ⟨_, execIgeEnc_of_inlen_zero h0, rfl, rfl, rfl, rfl, rfl⟩
  · exact ⟨_, execIgeDec_of_inlen_zero h0, rfl, rfl, rfl, rfl, rfl⟩

/-- Two states complete alike: the same error, or the same bytes drawn, the same requests and the same result. -/
def CompletesAlike (r r' : StepOutcome) (s s' : State) : Prop :=
  (∃ e, r = .next (s.fail e) ∧ r' = .next (s'.fail e)) ∨
  ∃ n rs B, r = .next (((s.afterPad n).withRequests rs).succeed B) ∧
    r' = .next (((s'.afterPad n).withRequests rs).succeed B)

section
variable {s s' : State} (ho : s.operands = s'.operands) (hr : ∀ k, s.rngByte k = s'.rngByte k)
include ho hr

theorem padded_congr (n : Nat) : s.padded n = s'.padded n := by
  rw [State.padded, State.padded, ho, draw_congr hr]

theorem exec_completesAlike (i : Instr) : CompletesAlike (exec i s) (exec i s') s s' := by
  cases i with
  | rsaEnc =>
    simp only [exec, execRsaEnc, ho, padded_congr ho hr]
    split
    · exact .inl ⟨_, rfl, rfl⟩
    · split
      · exact .inl ⟨_, rfl, rfl⟩
      · exact .inr ⟨_, _, _, rfl, rfl⟩
  | igeEnc =>
    simp only [exec, execIgeEnc, ho, padded_congr ho hr]
    exact .inr ⟨_, _, _, rfl, rfl⟩
  | igeDec =>
    simp only [exec, execIgeDec, ho]
    split
    · exact .inl ⟨_, rfl, rfl⟩
    · exact .inr ⟨0, _, _, rfl, rfl⟩

theorem issueCommand_completesAlike (v : Byte) :
    CompletesAlike (issueCommand exec v s) (issueCommand exec v s') s s' := by
  unfold issueCommand
  split
  · exact exec_completesAlike ho hr _
  · exact .inl ⟨_, rfl, rfl⟩

end

/-- A completed command has moved the random stream on by the bytes it drew. -/
theorem rngByte_succeed_afterPad (s : State) (n : Nat) (rs : List PortRequest) (B : Bytes) (k : Nat) :
    (((s.afterPad n).withRequests rs).succeed B).rngByte k = s.rngByte (n + k) :=
  rngByte_advance (by simp) (by simp) k

/-- Settles O38: the two states complete alike, and what they draw from goes on alike. -/
theorem outcomeDependsOnlyOnOperandsAndDraw : Obligations.OutcomeDependsOnlyOnOperandsAndDraw := by
  intro v s s' ho hr
  rcases issueCommand_completesAlike ho hr v with ⟨e, h, h'⟩ | ⟨n, rs, B, h, h'⟩
  · refine ⟨_, _, h, h', rfl, rfl, hr, ⟨rfl, rfl⟩, ?_⟩
    simp
  · refine ⟨_, _, h, h', rfl, rfl, fun k => ?_, rfl, ?_⟩
    · rw [rngByte_succeed_afterPad, rngByte_succeed_afterPad, hr]
    · simp

end Sys2Proof.Machine

/-! The step of a write to `CMD` (10_state.md R16), the values of `STATUS` (R17), and reset (R31). -/

namespace Sys2Proof.Machine

theorem issueCommand_of_decode {v : Byte} {i : Instr} (h : decode v = .command i) (s : State) :
    issueCommand exec v s = exec i s := by simp only [issueCommand, h]

@[simp] theorem decode_encode (i : Instr) : decode (encode i) = .command i := by cases i <;> rfl

/-- A byte read from a table of one-byte instructions is the byte. -/
@[simp] theorem tableByte_toNat (v : Byte) : tableByte 8 v.toNat = v := by
  rw [tableByte, Nat.mod_eq_of_lt v.isLt, BitVec.ofNat_toNat, BitVec.setWidth_eq]

/-- Settles O4: the write to `CMD` issues its value, and `withFetchWord` places such a write. -/
theorem stepRunsTheDecodedCommand : Obligations.StepRunsTheDecodedCommand := by
  constructor
  · intro s rest v i hp hv hd _
    rw [step_command hp hv, issueCommand_of_decode hd]
  · intro s i
    have hp : (s.withFetchWord 8 (encode i).toNat).pending = .writeReg 0 (encode i).toNat :: s.pending := by
      simp [State.withFetchWord]
    rw [step_command hp (encode i).isLt, BitVec.ofNat_toNat, BitVec.setWidth_eq,
      issueCommand_of_decode (decode_encode i)]
    rfl

theorem statusOfWord_statusWord (st : Status) : statusOfWord (statusWord st) = some st := by
  rcases st with _ | _ | e
  · rfl
  · rfl
  · cases e <;> rfl

/-- Settles O35: each status has its own word, and each of the six words its status. -/
theorem statusHasSixValues : Obligations.StatusHasSixValues := by
  refine ⟨statusOfWord_statusWord, fun w => ⟨?_, fun hw => ?_⟩⟩
  · rintro ⟨_ | _ | e, rfl⟩
    · decide
    · decide
    · cases e <;> decide
  · simp only [List.mem_cons, List.not_mem_nil, or_false] at hw
    rcases hw with rfl | rfl | rfl | rfl | rfl | rfl
    · exact ⟨.afterReset, rfl⟩
    · exact ⟨.success, rfl⟩
    · exact ⟨.failed .invalidInput, rfl⟩
    · exact ⟨.failed .malformedBlockLength, rfl⟩
    · exact ⟨.failed .illegalCommand, rfl⟩
    · exact ⟨.failed .invalidKey, rfl⟩

/-- Settles O48: register by register and space by space. -/
theorem resetValues : Obligations.ResetValues :=
  ⟨rfl, fun R => by cases R <;> rfl, memRead_zero, rfl, fun S j => by cases S <;> rfl⟩

/-- Settles O55: `STATUS` shows no error and both records are empty. -/
theorem recordsAtReset : Obligations.RecordsAtReset := by
  have noError (e : CmdError) (he : State.reset.status = .failed e) :
      State.reset.errors.getLast? = some e := nomatch he
  exact ⟨noError, fun _ hr => absurd hr List.not_mem_nil, rfl⟩

end Sys2Proof.Machine

/-! What a step does to the accesses still to be made (20_memory.md R54; 60_exceptions.md R134), and the host's
register and byte accesses (R40 to R43). -/

namespace Sys2Proof.Machine

theorem step_of_pending_nil {s : State} (hp : s.pending = []) : step s = .next s := by
  simp only [step, hp]

theorem step_of_pending_cons {s : State} {e : Event} {rest : List Event} (hp : s.pending = e :: rest) :
    step s = access exec e (s.withPending rest) := by
  simp only [step, hp]

/-- Carrying out an access adds no further access and takes none away. -/
theorem AccessDone.pending_eq {s t : State} {e : Event} (hd : AccessDone s e t) : t.pending = s.pending := by
  cases hd with
  | write | read | inlen | modlen | explen | readOnly | readReg | reset | failed => rfl
  | succeeded v hv n rs B he => simp

/-- Settles O5: the access is taken off the list before it is carried out. -/
theorem stepTakesTheNextAccess : Obligations.StepTakesTheNextAccess := by
  refine ⟨fun s t ht => ?_, fun s hp => step_of_pending_nil hp⟩
  rcases step_next ht with ⟨hp, rfl⟩ | ⟨e, rest, hp, hd⟩
  · rw [hp, List.tail_nil]
  · rw [hd.pending_eq, hp, State.withPending_pending, List.tail_cons]

/-- A byte written within the contract reads back at its index of its space, and every other byte as before. -/
theorem memRead_store_of_spaceOfId {o : Operands} (h : o.Ok) {space : Nat} {S : Space}
    (hS : spaceOfId space = some S) (hr : S ≠ .reg) (i : Nat) (b : Byte) (S' : Space) (j : Nat) :
    memRead ((o.store S i b).space S') j =
      if spaceOfId space = some S' ∧ S' ≠ .output ∧ j = i then b else memRead (o.space S') j := by
  have hiff : (S' = S ∧ S ≠ .reg ∧ S ≠ .output ∧ j = i) ↔
      (spaceOfId space = some S' ∧ S' ≠ .output ∧ j = i) := by
    rw [hS, Option.some.injEq]
    constructor
    · rintro ⟨rfl, -, ho, hj⟩
      exact ⟨rfl, ho, hj⟩
    · rintro ⟨rfl, ho, hj⟩
      exact ⟨rfl, hr, ho, hj⟩
  simp only [memRead_store h, hiff]

/-- Settles O40: the access is the store of the byte, which on `OUT` stores nothing. -/
theorem hostWriteStoresOneByte : Obligations.HostWriteStoresOneByte := by
  intro s rest space i b hok hp hc
  obtain ⟨S, hS, hr, hi⟩ := (byteInContract_iff space i).mp hc
  refine ⟨_, (AccessDone.write space i b S hS hr hi).step_eq hp, rfl,
    memRead_store_of_spaceOfId hok hS hr i b, store_inlen .., store_modlen .., store_explen .., ?_⟩
  rintro rfl
  cases hS
  rfl

/-- Every space but `OUT` reads as 0. -/
theorem spaceByte_of_ne_output (s : State) {S : Space} (h : S ≠ .output) (i : Nat) : s.spaceByte S i = 0 := by
  cases S with
  | output => exact absurd rfl h
  | reg | input | key | iv | modulus | exponent => rfl

/-- `OUT` has the identifier 2, and no other space has it. -/
theorem ne_output_of_spaceOfId {space : Nat} {S : Space} (hS : spaceOfId space = some S) (h : space ≠ 2) :
    S ≠ .output := by
  rintro rfl
  rcases spaceOfId_eq space with ⟨-, hs⟩ | ⟨-, hs⟩ | ⟨h2, -⟩ | ⟨-, hs⟩ | ⟨-, hs⟩ | ⟨-, hs⟩ | ⟨-, hs⟩ | ⟨-, hs⟩
  case inr.inr.inl => exact h h2
  all_goals cases hs.symm.trans hS

/-- Settles O41: the reply is the byte the space reads as. -/
theorem hostReadReturnsOutOnly : Obligations.HostReadReturnsOutOnly := by
  intro s rest space i hp hc
  obtain ⟨S, hS, hr, hi⟩ := (byteInContract_iff space i).mp hc
  refine ⟨_, (AccessDone.read space i S hS hr hi).step_eq hp, ?_, ?_, fun h2 => ?_⟩
  · rintro rfl hlt
    cases hS
    exact List.getD_eq_getElem _ _ hlt
  · rintro rfl hle
    cases hS
    exact List.getD_eq_default _ _ hle
  · exact spaceByte_of_ne_output _ (ne_output_of_spaceOfId hS h2) i

/-- Settles O42: for each register the access of its number. -/
theorem hostWriteRegister : Obligations.HostWriteRegister := by
  intro s rest r v hp
  refine ⟨?_, ?_, ?_, ?_, ?_, ?_⟩ <;> rintro rfl hv
  · exact (AccessDone.inlen v hv).step_eq hp
  · exact (AccessDone.modlen v hv).step_eq hp
  · exact (AccessDone.explen v hv).step_eq hp
  · exact step_command hp hv
  · exact (AccessDone.readOnly 1 v (.inl rfl)).step_eq hp
  · exact (AccessDone.readOnly 3 v (.inr ⟨rfl, hv⟩)).step_eq hp

/-- Settles O43: `STATUS` takes no value; `OUTLEN` takes none either, and has a range. -/
theorem writesToStatusAndOutlen : Obligations.WritesToStatusAndOutlen := by
  intro s rest r v hp
  constructor <;> rintro rfl
  · exact (AccessDone.readOnly 1 v (.inl rfl)).step_eq hp
  · exact step_of_pending_cons hp

/-- The value of a register, as the table of the register numbers gives it (30_encoding.md R65). -/
theorem regValue_of_regOfNumber {r : Nat} {R : Reg} (hR : regOfNumber r = some R) (s : State) :
    s.regValue R = [0, (statusWord s.status).toNat, s.operands.inlen, s.out.length, s.operands.modlen,
      s.operands.explen].getD r 0 := by
  rcases regOfNumber_eq r with ⟨rfl, h⟩ | ⟨rfl, h⟩ | ⟨rfl, h⟩ | ⟨rfl, h⟩ | ⟨rfl, h⟩ | ⟨rfl, h⟩ | ⟨-, h⟩ <;>
    cases h.symm.trans hR <;> rfl

/-- Settles O44: the reply is the value of the register read. -/
theorem hostReadRegister : Obligations.HostReadRegister := by
  intro s rest r hp hr
  obtain ⟨R, hR⟩ := (exists_regOfNumber_iff r).mpr hr
  rw [(AccessDone.readReg r R hR).step_eq hp, regValue_of_regOfNumber hR]
  rfl

end Sys2Proof.Machine

/-! The port requests (20_memory.md R49 to R52) and the random source (R57): which requests a command makes, that
they are legal, and how far it advances the source. -/

namespace Sys2Proof.Machine

/-- The buffer `RSA_ENC` raises to a power has 255 bytes, so its value has at most 2040 bits (R84, R85). -/
theorem be2int_padded_rsaPadLen_lt (s : State) (h : s.operands.inlen ≤ 255) :
    be2int (s.padded (rsaPadLen s.operands.inlen)) < 2 ^ 2040 := by
  have hlen : (s.padded (rsaPadLen s.operands.inlen)).length = 255 := by
    rw [padded_length, rsaPadLen, Nat.add_sub_cancel' h]
  calc be2int (s.padded (rsaPadLen s.operands.inlen))
      < 256 ^ 255 := hlen ▸ be2int_lt _
    _ = (2 ^ 8) ^ 255 := by rw [show (256 : Nat) = 2 ^ 8 from rfl]
    _ = 2 ^ (8 * 255) := (pow_mul 2 8 255).symm
    _ = 2 ^ 2040 := congrArg (2 ^ ·) (by decide)

theorem igePadLen_le (L : Nat) : igePadLen L ≤ 15 := by
  unfold igePadLen
  split <;> omega

/-- Every recorded request is one the engine may make. -/
def State.requestsLegal (s : State) : Prop := ∀ r ∈ s.requests, r.legal

theorem afterPad_requestsLegal {s : State} (h : s.requestsLegal) {n : Nat} (hn : n ≤ 254) :
    (s.afterPad n).requestsLegal := by
  intro r hr
  rw [State.afterPad_requests, List.mem_append] at hr
  rcases hr with hr | hr
  · exact h r hr
  · split at hr
    · exact absurd hr List.not_mem_nil
    · obtain rfl := List.mem_singleton.mp hr
      exact ⟨by omega, hn⟩

theorem withRequests_requestsLegal {s : State} (h : s.requestsLegal) {rs : List PortRequest}
    (hrs : ∀ r ∈ rs, r.legal) : (s.withRequests rs).requestsLegal := fun r hr =>
  (List.mem_append.mp hr).elim (h r) (hrs r)

/-- A command draws at most 254 bytes and only if some are missing; `RSA_ENC` asks for a power only after it has
rejected a modulus 0; a request to the AES port is always legal. -/
theorem exec_keeps_requestsLegal {i : Instr} {s t : State} (h : s.requestsLegal) (ht : exec i s = .next t) :
    t.requestsLegal := by
  cases i with
  | rsaEnc =>
    rcases execRsaEnc_cases s with ⟨-, he⟩ | ⟨-, -, -, he⟩ | ⟨hpos, hle, hN, he⟩ <;> cases he.symm.trans ht
    · exact h
    · exact h
    · have hpad : rsaPadLen s.operands.inlen ≤ 254 := by unfold rsaPadLen; omega
      refine withRequests_requestsLegal (afterPad_requestsLegal h hpad) fun r hr => ?_
      obtain rfl := List.mem_singleton.mp hr
      exact ⟨be2int_padded_rsaPadLen_lt s hle, Nat.one_le_iff_ne_zero.mpr hN⟩
  | igeEnc =>
    cases ht
    have hpad : igePadLen s.operands.inlen ≤ 254 := (igePadLen_le _).trans (by decide)
    refine withRequests_requestsLegal (afterPad_requestsLegal h hpad) fun r hr => ?_
    obtain ⟨x, -, rfl⟩ := List.mem_map.mp hr
    trivial
  | igeDec =>
    rcases execIgeDec_cases s with ⟨-, he⟩ | ⟨-, he⟩ <;> cases he.symm.trans ht
    · exact h
    · refine withRequests_requestsLegal h fun r hr => ?_
      obtain ⟨y, -, rfl⟩ := List.mem_map.mp hr
      trivial

theorem issueCommand_keeps_requestsLegal {v : Byte} {s t : State} (h : s.requestsLegal)
    (ht : issueCommand exec v s = .next t) : t.requestsLegal := by
  rcases issueCommand_cases v s with ⟨i, -, he⟩ | ⟨-, -, -, he⟩
  · exact exec_keeps_requestsLegal h (he ▸ ht)
  · cases he.symm.trans ht
    exact h

/-- Only a command that succeeds makes requests. -/
theorem AccessDone.keeps_requestsLegal {s t : State} {e : Event} (hd : AccessDone s e t)
    (h : s.requestsLegal) : t.requestsLegal := by
  cases hd with
  | write | read | inlen | modlen | explen | readOnly | readReg | reset | failed => exact h
  | succeeded v hv n rs B he => exact issueCommand_keeps_requestsLegal h he

/-- Settles O53: an idle step makes no request, and every access keeps the requests legal. -/
theorem stepKeepsPortRequestsLegal : Obligations.StepKeepsPortRequestsLegal := by
  intro s t h ht
  rcases step_next ht with ⟨-, rfl⟩ | ⟨e, rest, -, hd⟩
  · exact h
  · exact hd.keeps_requestsLegal (s := s.withPending rest) h

/-- The block before block `i` of a concatenation is the start or the block listed before. -/
theorem blockBefore_concatBlocks (start : Block) (bs : List Block) (i : Nat) (h : i - 1 < bs.length) :
    blockBefore start (concatBlocks bs) i = if i = 0 then start else bs[i - 1] := by
  rw [blockBefore, blockAt_concatBlocks bs (i - 1) h]

/-- The blocks given to the cipher by encryption: each block of the input, xor the output block before it (R99). -/
theorem igeEncrypt_queries_eq_map (E : Block → Block) (c0 p0 : Block) (X : Bytes) :
    (igeEncrypt E c0 p0 X).queries = (List.range (X.length / 16)).map fun i =>
      xorBlock (blockAt X i) (blockBefore c0 (igeEncrypt E c0 p0 X).acc i) := by
  rw [igeEncrypt_queries, igeEncrypt_acc]
  refine List.ext_getElem (by simp) fun i hi _ => ?_
  have hi : i < (blocks X).length := by simpa using hi
  rw [encAsked_getElem E c0 p0 _ i hi, ← blockBefore_concatBlocks, List.getElem_map, List.getElem_range,
    blocks_getElem]

/-- The blocks given to the inverse cipher by decryption: each block of the input, xor the output block before it
(R103). -/
theorem igeDecrypt_queries_eq_map (D : Block → Block) (c0 p0 : Block) (X : Bytes) :
    (igeDecrypt D c0 p0 X).queries = (List.range (X.length / 16)).map fun i =>
      xorBlock (blockAt X i) (blockBefore p0 (igeDecrypt D c0 p0 X).acc i) := by
  rw [igeDecrypt_queries, igeDecrypt_acc]
  refine List.ext_getElem (by simp) fun i hi _ => ?_
  have hi : i < (blocks X).length := by simpa using hi
  rw [decAsked_getElem D c0 p0 _ i hi, ← blockBefore_concatBlocks, List.getElem_map, List.getElem_range,
    blocks_getElem]

/-- The requests of a successful `RSA_ENC` (R52). -/
theorem execRsaEnc_requests {s t : State} (ht : execRsaEnc s = .next t) (hst : statusErr t.status = false) :
    t.requests = s.requests ++ (if s.operands.inlen < 255 then [.rng (255 - s.operands.inlen)] else []) ++
      [.modexp (be2int (s.padded (255 - s.operands.inlen))) s.operands.exponentE s.operands.modulusN] := by
  rcases execRsaEnc_cases s with ⟨-, he⟩ | ⟨-, -, -, he⟩ | ⟨-, -, -, he⟩ <;> cases he.symm.trans ht
  · cases hst
  · cases hst
  · have hpad : 255 - s.operands.inlen = 0 ↔ ¬ s.operands.inlen < 255 := by omega
    simp only [State.succeed_requests, State.withRequests_requests, State.afterPad_requests, rsaPadLen, hpad,
      ite_not]

/-- The requests of `IGE_ENC` (R52). -/
theorem execIgeEnc_requests {s t : State} (ht : execIgeEnc s = .next t) :
    t.requests = s.requests ++
      (if s.operands.inlen % 16 ≠ 0 then [.rng (16 - s.operands.inlen % 16)] else []) ++
      (List.range ((s.operands.inlen + 15) / 16)).map fun i =>
        .aesEnc s.operands.keyK (xorBlock (blockAt (s.padded (igePadLen s.operands.inlen)) i)
          (blockBefore s.operands.ivCipher0 t.out i)) := by
  cases ht
  have hn : (s.padded (igePadLen s.operands.inlen)).length / 16 = (s.operands.inlen + 15) / 16 := by
    rw [padded_length, igePadLen_add, Nat.mul_div_cancel_left _ (by decide)]
  have hrng : (if igePadLen s.operands.inlen = 0 then [] else [PortRequest.rng (igePadLen s.operands.inlen)]) =
      if s.operands.inlen % 16 ≠ 0 then [.rng (16 - s.operands.inlen % 16)] else [] := by
    by_cases h : s.operands.inlen % 16 = 0
    · simp [igePadLen, h]
    · have hne : 16 - s.operands.inlen % 16 ≠ 0 := by omega
      simp [igePadLen, h, hne]
  rw [State.succeed_requests, State.withRequests_requests, State.afterPad_requests, State.succeed_out, hrng,
    igeEncrypt_queries_eq_map, hn, List.map_map]
  rfl

/-- The requests of a successful `IGE_DEC` (R52). -/
theorem execIgeDec_requests {s t : State} (ht : execIgeDec s = .next t) (hst : statusErr t.status = false) :
    t.requests = s.requests ++ (List.range (s.operands.inlen / 16)).map fun i =>
      .aesDec s.operands.keyK (xorBlock (blockAt s.operands.inputSeq i)
        (blockBefore s.operands.ivPlain0 t.out i)) := by
  rcases execIgeDec_cases s with ⟨-, he⟩ | ⟨-, he⟩ <;> cases he.symm.trans ht
  · cases hst
  · rw [State.succeed_requests, State.withRequests_requests, State.succeed_out, igeDecrypt_queries_eq_map,
      inputSeq_length, List.map_map]
    rfl

/-- Every error is detected before the first request (R52). -/
theorem issueCommand_requests_of_err {v : Byte} {s t : State} (ht : issueCommand exec v s = .next t)
    (hst : statusErr t.status = true) : t.requests = s.requests := by
  rcases issueCommand_completes v s with ⟨e, he⟩ | ⟨n, rs, B, he⟩ <;> cases he.symm.trans ht
  · rfl
  · cases hst

/-- Settles O29: the requests of each command, and of none that ends in an error. -/
theorem portRequestsInOrder : Obligations.PortRequestsInOrder := fun _ _ =>
  ⟨execRsaEnc_requests, execIgeEnc_requests, execIgeDec_requests, fun _ => issueCommand_requests_of_err⟩

/-- An error draws no random byte. -/
@[simp] theorem rngByte_fail (s : State) (e : CmdError) (k : Nat) : (s.fail e).rngByte k = s.rngByte k :=
  rngByte_congr rfl rfl k

/-- Settles O30: a completion advances the source by what its padding drew, and an error draws nothing. -/
theorem randomStreamAdvances : Obligations.RandomStreamAdvances := by
  refine fun s t k => ⟨fun ht => ?_, fun ht => ?_, fun ht => ?_⟩
  · rcases execRsaEnc_cases s with ⟨-, he⟩ | ⟨-, -, -, he⟩ | ⟨-, -, -, he⟩ <;> cases he.symm.trans ht
    · simp [statusErr]
    · simp [statusErr]
    · exact rngByte_succeed_afterPad ..
  · cases ht
    exact rngByte_succeed_afterPad ..
  · rcases execIgeDec_cases s with ⟨-, he⟩ | ⟨-, he⟩ <;> cases he.symm.trans ht
    · exact rngByte_fail ..
    · exact rngByte_congr rfl rfl k

end Sys2Proof.Machine

/-! The encoding of commands (30_encoding.md R63, R66, R67, R72) and of the status word (R64). -/

namespace Sys2Proof.Machine

/-- The decoder and the encoder are inverse on commands (R72). -/
theorem decode_eq_command_iff (v : Byte) (i : Instr) : decode v = .command i ↔ v = encode i :=
  ⟨decode_eq_command v i, fun h => h ▸ decode_encode i⟩

/-- Settles O2: every command is well formed, so its well-formedness is not needed. -/
theorem decodeAndEncodeAgree : Obligations.DecodeAndEncodeAgree := fun i v _ => decode_eq_command_iff v i

/-- Settles O1: three codes and three reserved bytes are decoded, and no other byte decodes to a command. -/
theorem commandCodesDecode : Obligations.CommandCodesDecode :=
  ⟨decode_encode .rsaEnc, decode_encode .igeEnc, decode_encode .igeDec, by decide, by decide, by decide,
    fun v => ⟨decode_eq_command_iff v .rsaEnc, decode_eq_command_iff v .igeEnc,
      decode_eq_command_iff v .igeDec⟩⟩

/-- A byte that is none of the three codes is reserved (R67). -/
theorem decode_eq_illegal {v : Byte} (h1 : v ≠ 0x01) (h2 : v ≠ 0x02) (h3 : v ≠ 0x03) :
    decode v = .illegal v := by
  rcases decode_cases v with ⟨i, hv, -⟩ | ⟨-, -, -, h⟩
  · cases i with
    | rsaEnc => exact absurd hv h1
    | igeEnc => exact absurd hv h2
    | igeDec => exact absurd hv h3
  · exact h

theorem issueCommand_of_illegal {v : Byte} (h : decode v = .illegal v) (s : State) :
    issueCommand exec v s = .next (s.fail .illegalCommand) := by simp only [issueCommand, h]

/-- A write of a byte to `CMD` is the issue of that byte. -/
theorem step_command_byte {s : State} {rest : List Event} {v : Byte}
    (hp : s.pending = .writeReg 0 v.toNat :: rest) : step s = issueCommand exec v (s.withPending rest) := by
  rw [step_command hp v.isLt, BitVec.ofNat_toNat, BitVec.setWidth_eq]

/-- Settles O3: the step is the error completion `IllegalCommand`. -/
theorem reservedCodeCompletesWithIllegalCommand : Obligations.ReservedCodeCompletesWithIllegalCommand := by
  intro s rest v hp h1 h2 h3
  have hd := decode_eq_illegal h1 h2 h3
  have hstep : step s = .next ((s.withPending rest).fail .illegalCommand) :=
    (step_command_byte hp).trans (issueCommand_of_illegal hd _)
  exact ⟨hd, _, hstep, rfl, rfl, rfl, ⟨rfl, rfl, rfl⟩, rfl, rfl⟩

/-- Settles O34: status by status. -/
theorem statusWordLayout : Obligations.StatusWordLayout := by
  refine ⟨by decide, fun st => ?_⟩
  rcases st with _ | _ | e
  · decide
  · decide
  · cases e <;> decide

end Sys2Proof.Machine

/-! What a command reads of the operands (30_encoding.md R68, R71): the input sequence and the numbers or blocks
assembled for it, whatever stands in the spaces beside them. -/

namespace Sys2Proof.Machine

/-- States that complete alike from the same `OUT` end with the same `STATUS` and the same `OUT`. -/
theorem CompletesAlike.status_out_eq {r r' : StepOutcome} {s s' : State} (h : CompletesAlike r r' s s')
    (hout : s'.out = s.out) :
    ∃ t t', r = .next t ∧ r' = .next t' ∧ t'.status = t.status ∧ t'.out = t.out := by
  rcases h with ⟨e, h, h'⟩ | ⟨n, rs, B, h, h'⟩
  · exact ⟨_, _, h, h', rfl, hout⟩
  · exact ⟨_, _, h, h', rfl, rfl⟩

theorem inlen_eq_of_inputSeq_eq {o o' : Operands} (h : o'.inputSeq = o.inputSeq) : o'.inlen = o.inlen := by
  rw [← inputSeq_length, h, inputSeq_length]

section
variable {s s' : State} (hin : s'.operands.inputSeq = s.operands.inputSeq)
include hin

/-- `IGE_DEC` reads the input sequence, the key and the IV. -/
theorem execIgeDec_completesAlike (hK : s'.operands.keyK = s.operands.keyK)
    (hC : s'.operands.ivCipher0 = s.operands.ivCipher0) (hP : s'.operands.ivPlain0 = s.operands.ivPlain0) :
    CompletesAlike (execIgeDec s) (execIgeDec s') s s' := by
  simp only [execIgeDec, inlen_eq_of_inputSeq_eq hin, hin, hK, hC, hP]
  split
  · exact .inl ⟨_, rfl, rfl⟩
  · exact .inr ⟨0, _, _, rfl, rfl⟩

variable (hr : ∀ k, s'.rngByte k = s.rngByte k)
include hr

theorem padded_eq_of_inputSeq_eq (n : Nat) : s'.padded n = s.padded n := by
  rw [State.padded, State.padded, hin, draw_congr hr]

/-- `RSA_ENC` reads the input sequence, `N`, `E` and the bytes it draws. -/
theorem execRsaEnc_completesAlike (hN : s'.operands.modulusN = s.operands.modulusN)
    (hE : s'.operands.exponentE = s.operands.exponentE) :
    CompletesAlike (execRsaEnc s) (execRsaEnc s') s s' := by
  simp only [execRsaEnc, inlen_eq_of_inputSeq_eq hin, padded_eq_of_inputSeq_eq hin hr, hN, hE]
  split
  · exact .inl ⟨_, rfl, rfl⟩
  · split
    · exact .inl ⟨_, rfl, rfl⟩
    · exact .inr ⟨_, _, _, rfl, rfl⟩

/-- `IGE_ENC` reads the input sequence, the key, the IV and the bytes it draws. -/
theorem execIgeEnc_completesAlike (hK : s'.operands.keyK = s.operands.keyK)
    (hC : s'.operands.ivCipher0 = s.operands.ivCipher0) (hP : s'.operands.ivPlain0 = s.operands.ivPlain0) :
    CompletesAlike (execIgeEnc s) (execIgeEnc s') s s' := by
  simp only [execIgeEnc, inlen_eq_of_inputSeq_eq hin, padded_eq_of_inputSeq_eq hin hr, hK, hC, hP]
  exact .inr ⟨_, _, _, rfl, rfl⟩

end

/-- Settles O39: the two states complete alike. -/
theorem commandsReadOnlyTheirOperands : Obligations.CommandsReadOnlyTheirOperands := by
  intro s s' hin hr hout
  refine ⟨fun hN hE => (execRsaEnc_completesAlike hin hr hN hE).status_out_eq hout, fun hK hC hP i hi => ?_⟩
  cases i with
  | rsaEnc => exact absurd rfl hi
  | igeEnc => exact (execIgeEnc_completesAlike hin hr hK hC hP).status_out_eq hout
  | igeDec => exact (execIgeDec_completesAlike hin hK hC hP).status_out_eq hout

theorem be2int_replicate_zero (a : Nat) : be2int (List.replicate a 0) = 0 := by
  induction a with
  | zero => rfl
  | succ a ih => rw [List.replicate_succ, be2int_cons, ih]; simp

/-- Leading zero bytes do not change the value (R71, R115). -/
theorem be2int_replicate_zero_append (a : Nat) (B : Bytes) : be2int (List.replicate a 0 ++ B) = be2int B := by
  rw [be2int_append, be2int_replicate_zero, Nat.zero_mul, Nat.zero_add]

/-- Settles O13: the two states have the same `N` and `E`. -/
theorem leadingZerosOfTheKeyAreIgnored : Obligations.LeadingZerosOfTheKeyAreIgnored := by
  intro s s' a b hin hmod hexp hr hout
  have hN : s'.operands.modulusN = s.operands.modulusN := by
    rw [Operands.modulusN, hmod, be2int_replicate_zero_append, Operands.modulusN]
  have hE : s'.operands.exponentE = s.operands.exponentE := by
    rw [Operands.exponentE, hexp, be2int_replicate_zero_append, Operands.exponentE]
  exact (execRsaEnc_completesAlike hin hr hN hE).status_out_eq hout

end Sys2Proof.Machine

/-! The host's scripts as runs (30_encoding.md R73, R74): the accesses of `LDIN` load the input. -/

namespace Sys2Proof.Machine

/-- The memory after a sequence has been written from an index on, byte by byte. -/
def memWriteSeq : Memory → Nat → Bytes → Memory
  | m, _, [] => m
  | m, i, b :: B => memWriteSeq (memWrite m i b) (i + 1) B

/-- A sequence written from an index on leaves the bytes below it. -/
theorem memRead_memWriteSeq_of_lt {m : Memory} (h : m.wf) {i j : Nat} (hj : j < i) (B : Bytes) :
    memRead (memWriteSeq m i B) j = memRead m j := by
  induction B generalizing m i with
  | nil => rfl
  | cons b B ih =>
    rw [memWriteSeq, ih (memWrite_wf h i b) (hj.trans (Nat.lt_succ_self i)), memRead_memWrite h,
      if_neg hj.ne]

theorem memSeq_succ (m : Memory) (i n : Nat) : memSeq m i (n + 1) = memRead m i :: memSeq m (i + 1) n := by
  simp [memSeq, List.range_succ_eq_map, Nat.add_assoc, Nat.add_comm 1]

/-- The sequence written reads back. -/
theorem memSeq_memWriteSeq {m : Memory} (h : m.wf) (i : Nat) (B : Bytes) :
    memSeq (memWriteSeq m i B) i B.length = B := by
  induction B generalizing m i with
  | nil => rfl
  | cons b B ih =>
    have hwf := memWrite_wf h i b
    rw [List.length_cons, memSeq_succ, memWriteSeq, ih hwf,
      memRead_memWriteSeq_of_lt hwf (Nat.lt_succ_self i), memRead_memWrite h, if_pos rfl]

/-- A run of `k + 1` steps goes on from the state its first step answers. -/
theorem run_succ_of_step {s t : State} (h : step s = .next t) (k : Nat) :
    Sys2Proof.core.run (k + 1) s = Sys2Proof.core.run k t := by
  have h' : Sys2Proof.core.step s = .next t := h
  simp only [Host.Core.run, h']

/-- The operands with a sequence written to `IN` from an index on. -/
def Operands.storeInput (o : Operands) (i : Nat) (B : Bytes) : Operands :=
  { o with input := memWriteSeq o.input i B }

/-- As many steps as there are bytes write a sequence to `IN`. -/
theorem run_writeEvents_input (k : Nat) (rest : List Event) {s : State} {i : Nat} {B : Bytes}
    (hfit : Config.dataMax.fits (i + B.length) = true)
    (hp : s.pending = writeEvents (spaceId .input) i B ++ rest) :
    Sys2Proof.core.run (k + B.length) s =
      Sys2Proof.core.run k ((s.withPending rest).withOperands (s.operands.storeInput i B)) := by
  induction B generalizing s i with
  | nil =>
    obtain rfl : s.pending = rest := hp
    rfl
  | cons b B ih =>
    rw [List.length_cons, ← Nat.add_assoc, Nat.add_right_comm] at hfit
    have hi : (spaceCapacity .input).fits (i + 1) = true := Cap.fits_mono (Nat.le_add_right _ _) hfit
    have hstep := (AccessDone.write _ i b .input rfl (by decide) hi).step_eq hp
    rw [List.length_cons, ← Nat.add_assoc, run_succ_of_step hstep, ih hfit rfl]
    rfl

/-- Settles O45: the bytes are written one by one, then `INLEN`. -/
theorem loadedInputIsTheInputSequence : Obligations.LoadedInputIsTheInputSequence := by
  intro s B rest hok hfit hp
  have hp' : s.pending = writeEvents (spaceId .input) 0 B ++ (.writeReg 2 B.length :: rest) := by
    rw [hp]
    simp [ldin, lineEvents, regNumber]
  have hrun := (run_writeEvents_input 1 _ (by rwa [Nat.zero_add]) hp').trans
    (run_succ_of_step ((AccessDone.inlen B.length hfit).step_eq rfl) 0)
  rw [Nat.add_comm] at hrun
  refine ⟨_, hrun, rfl, memSeq_memWriteSeq (hok.spaces .input).1 0 B, fun S hS => ?_, rfl, rfl, rfl, rfl⟩
  cases S with
  | input => exact absurd rfl hS
  | reg | output | key | iv | modulus | exponent => rfl

end Sys2Proof.Machine

/-! `RSA_ENC` (40_rsa_encrypt.md R81 to R91): the two checks, the padded buffer, and the value and the length of the
result. -/

namespace Sys2Proof.Machine

/-- Only zero bytes give the value 0 (R115). -/
theorem be2int_eq_zero_iff (B : Bytes) : be2int B = 0 ↔ ∀ b ∈ B, b = 0 := by
  induction B with
  | nil => simp
  | cons b B ih =>
    have hb : b.toNat = 0 ↔ b = 0 := BitVec.toNat_inj (y := 0)
    rw [be2int_cons, Nat.add_eq_zero_iff, ih, Nat.mul_eq_zero, or_iff_left (pow_ne_zero _ (by decide)), hb,
      List.forall_mem_cons]

theorem be2int_memSeq_eq_zero_iff (m : Memory) (n : Nat) :
    be2int (memSeq m 0 n) = 0 ↔ ∀ j, j < n → memRead m j = 0 := by
  simp [be2int_eq_zero_iff, memSeq]

theorem be2int_draw_eq_zero_iff (s : State) (n : Nat) :
    be2int (s.draw n) = 0 ↔ ∀ k, k < n → s.rngByte k = 0 := by
  simp [be2int_eq_zero_iff, State.draw]

/-- The value of the padded buffer: the input above the random bytes (R84, R85). -/
theorem be2int_padded (s : State) (n : Nat) :
    be2int (s.padded n) = be2int s.operands.inputSeq * 256 ^ n + be2int (s.draw n) := by
  rw [State.padded, be2int_append, draw_length]

theorem padded_getElem?_left (s : State) (n : Nat) {j : Nat} (h : j < s.operands.inlen) :
    (s.padded n)[j]? = some (memRead s.operands.input j) := by
  rw [State.padded, List.getElem?_append_left (by rwa [inputSeq_length])]
  simp [Operands.inputSeq, memSeq, h]

theorem padded_getElem?_right (s : State) {n k : Nat} (h : k < n) :
    (s.padded n)[s.operands.inlen + k]? = some (s.rngByte k) := by
  rw [State.padded, List.getElem?_append_right (by rw [inputSeq_length]; exact Nat.le_add_right _ _),
    inputSeq_length, Nat.add_sub_cancel_left]
  simp [State.draw, h]

/-- Settles O10: the input sequence has `INLEN` bytes, the drawn bytes complete them to 255. -/
theorem rsaPaddingLayout : Obligations.RsaPaddingLayout := by
  intro s o hle
  refine ⟨?_, fun j hj => padded_getElem?_left s _ hj, fun k hk => padded_getElem?_right s hk⟩
  rw [padded_length, rsaPadLen, Nat.add_sub_cancel' hle]

/-- A number has no more bits than its bit length (R116). -/
theorem lt_two_pow_bitlen (c : Nat) : c < 2 ^ bitlen c := by
  unfold bitlen
  split
  · next h => simp [h]
  · exact Nat.lt_log2_self

/-- Both readings of `CANON` give every bit a place (R117). -/
theorem bitlen_le_canonLen (m : Canon) (c : Nat) : bitlen c ≤ 8 * canonLen m c := by
  cases m <;> simp only [canonLen] <;> omega

/-- The canonical encoding loses nothing, under either reading (R117). -/
theorem be2int_canon (m : Canon) (c : Nat) : be2int (canon m c) = c := by
  have hlt : c < 256 ^ canonLen m c := calc
    c < 2 ^ bitlen c := lt_two_pow_bitlen c
    _ ≤ 2 ^ (8 * canonLen m c) := Nat.pow_le_pow_right (by decide) (bitlen_le_canonLen m c)
    _ = 256 ^ canonLen m c := pow_mul 2 8 _
  rw [canon, be2int_int2be_mod, Nat.mod_eq_of_lt hlt]

/-- The last bytes of a sequence hold its value modulo their width (R10, R115). -/
theorem be2int_lastBytes (B : Bytes) {n : Nat} (h : n ≤ B.length) :
    be2int (lastBytes B n) = be2int B % 256 ^ n := by
  have hlen : (lastBytes B n).length = n := by rw [lastBytes, List.length_drop, Nat.sub_sub_self h]
  have hsplit : be2int B = be2int (B.take (B.length - n)) * 256 ^ n + be2int (lastBytes B n) := by
    conv_lhs => rw [← List.take_append_drop (B.length - n) B, be2int_append]
    rw [← lastBytes, hlen]
  have hlt : be2int (lastBytes B n) < 256 ^ n := by simpa only [hlen] using be2int_lt (lastBytes B n)
  rw [hsplit, Nat.mul_add_mod_self_right, Nat.mod_eq_of_lt hlt]

/-- Formatting keeps the value modulo `pow(2, 2048)`, the numbers of 256 bytes (R118). -/
theorem be2int_fmt256 (R : Bytes) : be2int (fmt256 R) = be2int R % 2 ^ 2048 := by
  have hwidth : (2 : Nat) ^ 2048 = 256 ^ 256 := calc
    2 ^ 2048 = 2 ^ (8 * 256) := congrArg (2 ^ ·) (by decide)
    _ = 256 ^ 256 := pow_mul 2 8 256
  rw [hwidth, fmt256]
  split
  · next h => exact be2int_lastBytes R h.le
  · next h =>
    have hlt : be2int R < 256 ^ 256 :=
      (be2int_lt R).trans_le (Nat.pow_le_pow_right (by decide) (Nat.le_of_not_lt h))
    rw [Nat.mod_eq_of_lt hlt]

theorem fmt256_canon_length (m : Canon) (c : Nat) : (fmt256 (canon m c)).length = min 256 (canonLen m c) := by
  rw [fmt256_length, canon_length, Nat.min_comm]

/-- The results 0 and 1 are one byte under either reading (R88, R117). -/
theorem fmt256_canon_zero (m : Canon) : fmt256 (canon m 0) = [0] := by cases m <;> decide

theorem fmt256_canon_one (m : Canon) : fmt256 (canon m 1) = [1] := by cases m <;> decide

/-- `C` of R86: the power of the padded buffer that `RSA_ENC` asks for. -/
def State.rsaPower (s : State) : Nat :=
  modexp (be2int (s.padded (rsaPadLen s.operands.inlen))) s.operands.exponentE s.operands.modulusN

/-- R82: the length check comes first. -/
theorem exec_rsaEnc_of_bad_length {s : State} (h : s.operands.inlen = 0 ∨ 256 ≤ s.operands.inlen) :
    exec .rsaEnc s = .next (s.fail .invalidInput) := if_pos h

/-- R83: the modulus check comes second. -/
theorem exec_rsaEnc_of_zero_modulus {s : State} (hpos : 1 ≤ s.operands.inlen) (hle : s.operands.inlen ≤ 255)
    (hN : s.operands.modulusN = 0) : exec .rsaEnc s = .next (s.fail .invalidKey) := by
  have hlen : ¬ (s.operands.inlen = 0 ∨ s.operands.inlen > 255) := by omega
  exact (if_neg hlen).trans (if_pos hN)

/-- R81: past both checks the command completes with its result. -/
theorem exec_rsaEnc_of_accepted {s : State} (hpos : 1 ≤ s.operands.inlen) (hle : s.operands.inlen ≤ 255)
    (hN : s.operands.modulusN ≠ 0) : ∃ t, exec .rsaEnc s = .next t ∧ t.status = .success ∧
      t.operands = .zero ∧ t.out = fmt256 (canon Config.canonMode s.rsaPower) ∧ SurroundingsKept s t := by
  have hlen : ¬ (s.operands.inlen = 0 ∨ s.operands.inlen > 255) := by omega
  exact ⟨_, (if_neg hlen).trans (if_neg hN), rfl, rfl, rfl, by simp, by simp⟩

/-- What an error completion leaves alone (60_exceptions.md R126, R127). -/
theorem fail_portsUntouched (s : State) (e : CmdError) : PortsUntouched s (s.fail e) := ⟨rfl, rfl, rfl⟩

theorem fail_surroundingsKept (s : State) (e : CmdError) : SurroundingsKept s (s.fail e) := ⟨rfl, rfl⟩

/-- Settles O8: past the length check the command ends with `InvalidKey` or succeeds. -/
theorem rsaEncChecksLengthFirst : Obligations.RsaEncChecksLengthFirst := by
  refine fun s => ⟨fun h => ?_, fun hpos hle => ?_⟩
  · exact ⟨_, exec_rsaEnc_of_bad_length h, rfl, rfl, rfl, fail_portsUntouched s _, fail_surroundingsKept s _⟩
  · by_cases hN : s.operands.modulusN = 0
    · exact ⟨_, exec_rsaEnc_of_zero_modulus hpos hle hN, by rw [State.fail_status]; decide⟩
    · obtain ⟨t, ht, hst, -⟩ := exec_rsaEnc_of_accepted hpos hle hN
      exact ⟨t, ht, by rw [hst]; decide⟩

/-- Settles O9: `N` is 0 exactly if the bytes it is read from are all zero. -/
theorem rsaEncRejectsZeroModulus : Obligations.RsaEncRejectsZeroModulus := by
  intro s o hpos hle
  have hzero : o.modulusN = 0 ↔ ∀ j, j < o.modlen → memRead o.modulus j = 0 := be2int_memSeq_eq_zero_iff _ _
  refine ⟨fun h => ?_, fun ⟨j, hj, hne⟩ => ?_⟩
  · exact ⟨_, exec_rsaEnc_of_zero_modulus hpos hle (hzero.mpr h), rfl, rfl, rfl, fail_portsUntouched s _,
      fail_surroundingsKept s _⟩
  · obtain ⟨t, ht, hst, -⟩ := exec_rsaEnc_of_accepted hpos hle fun hN => hne (hzero.mp hN j hj)
    exact ⟨t, ht, by rw [hst]; rfl⟩

/-- Settles O7: the buffer's value is the plaintext above the drawn bytes. -/
theorem rsaEncCompletes : Obligations.RsaEncCompletes := by
  intro s o hpos hle hN r M C
  obtain ⟨t, ht, hst, hz, hout, hkept⟩ := exec_rsaEnc_of_accepted hpos hle hN
  have hC : s.rsaPower = C := by rw [State.rsaPower, be2int_padded]; rfl
  have hlen : t.out.length = min 256 (canonLen Config.canonMode C) := by
    rw [hout, hC, fmt256_canon_length]
  have hcanon := canonLen_pos Config.canonMode C
  exact ⟨t, ht, by rw [hst]; rfl, hz, by rw [hout, hC], by omega, by omega, hkept⟩

/-- Settles O11: formatting keeps the value modulo `pow(2, 2048)`, and `C` is below the modulus. -/
theorem rsaOutputValueAndLength : Obligations.RsaOutputValueAndLength := by
  intro s o hpos hle hN C
  obtain ⟨t, ht, -, -, hout, -⟩ := exec_rsaEnc_of_accepted hpos hle hN
  have hout : t.out = fmt256 (canon Config.canonMode C) := hout
  have hval : be2int t.out = C % 2 ^ 2048 := by rw [hout, be2int_fmt256, be2int_canon]
  have hlen : t.out.length = min 256 (canonLen Config.canonMode C) := by
    rw [hout, fmt256_canon_length]
  have hlt : C < o.modulusN := Nat.mod_lt _ (Nat.pos_of_ne_zero hN)
  refine ⟨t, ht, hval, fun hmax => ?_, fun hmode => ?_, fun hmode => ?_⟩
  · rw [hval, Nat.mod_eq_of_lt (hlt.trans_le hmax)]
  · rw [hlen, hmode, canonLen]
  · rw [hlen, hmode, canonLen]

/-- Settles O12: each row makes `C` 0 or 1. -/
theorem rsaDegenerateOperands : Obligations.RsaDegenerateOperands := by
  intro s o hpos hle
  have hresult : ∀ c, s.rsaPower = c → o.modulusN ≠ 0 →
      ∃ t, exec .rsaEnc s = .next t ∧ t.out = fmt256 (canon Config.canonMode c) := by
    rintro c rfl hN
    obtain ⟨t, ht, -, -, hout, -⟩ := exec_rsaEnc_of_accepted hpos hle hN
    exact ⟨t, ht, hout⟩
  refine ⟨fun hN => ?_, fun hE hN => ?_, fun hE hN hmsg hrng => ?_⟩
  · have hC : s.rsaPower = 0 := by rw [State.rsaPower, modexp, hN, Nat.mod_one]
    simpa only [fmt256_canon_zero] using hresult 0 hC (by omega)
  · have hC : s.rsaPower = 1 := by rw [State.rsaPower, modexp, hE, pow_zero, Nat.mod_eq_of_lt hN]
    simpa only [fmt256_canon_one] using hresult 1 hC (by omega)
  · have hM : be2int (s.padded (rsaPadLen s.operands.inlen)) = 0 := by
      have hin : be2int o.inputSeq = 0 := (be2int_memSeq_eq_zero_iff _ _).mpr hmsg
      have hdraw : be2int (s.draw (rsaPadLen o.inlen)) = 0 := (be2int_draw_eq_zero_iff _ _).mpr hrng
      rw [be2int_padded, hin, hdraw, Nat.zero_mul]
    have hC : s.rsaPower = 0 := by
      rw [State.rsaPower, modexp, hM, Nat.zero_pow hE, Nat.zero_mod]
    simpa only [fmt256_canon_zero] using hresult 0 hC hN

end Sys2Proof.Machine

/-! The IGE cipher (41_aes_ige.md R96 to R110): the chaining equation, which decryption shares with encryption, the
loop invariant, the round trips, and what the two commands answer. -/

namespace Sys2Proof.Machine

/-- Decryption is the chaining of encryption with the roles of the cipher and the plain block exchanged (R99, R103). -/
theorem decOut_eq_encOut (D : Block → Block) (c p : Block) (ys : List Block) :
    decOut D c p ys = encOut D p c ys := by
  induction ys generalizing c p with
  | nil => rfl
  | cons y ys ih => rw [decOut, encOut, ih]

theorem igeDecrypt_acc_eq_igeEncrypt_acc (D : Block → Block) (c0 p0 : Block) (X : Bytes) :
    (igeDecrypt D c0 p0 X).acc = (igeEncrypt D p0 c0 X).acc := by
  rw [igeDecrypt_acc, igeEncrypt_acc, decOut_eq_encOut]

/-- The chaining equation of encryption (R99). -/
theorem blockAt_igeEncrypt_acc (E : Block → Block) (c0 p0 : Block) {X : Bytes} {i : Nat} (h : i < X.length / 16) :
    blockAt (igeEncrypt E c0 p0 X).acc i =
      xorBlock (E (xorBlock (blockAt X i) (blockBefore c0 (igeEncrypt E c0 p0 X).acc i)))
        (blockBefore p0 X i) := by
  have hi : i < (blocks X).length := by rwa [blocks_length]
  have hout : i < (encOut E c0 p0 (blocks X)).length := by rwa [encOut_length]
  simp only [igeEncrypt_acc]
  rw [blockAt_concatBlocks _ i hout, encOut_getElem E c0 p0 _ i hi, encAsked_getElem E c0 p0 _ i hi,
    blockBefore_concatBlocks c0 _ i ((Nat.sub_le i 1).trans_lt hout), blocks_getElem, blocks_getElem, blockBefore]

/-- The chaining equation of decryption (R103). -/
theorem blockAt_igeDecrypt_acc (D : Block → Block) (c0 p0 : Block) {X : Bytes} {i : Nat} (h : i < X.length / 16) :
    blockAt (igeDecrypt D c0 p0 X).acc i =
      xorBlock (D (xorBlock (blockAt X i) (blockBefore p0 (igeDecrypt D c0 p0 X).acc i)))
        (blockBefore c0 X i) := by
  simp only [igeDecrypt_acc_eq_igeEncrypt_acc]
  exact blockAt_igeEncrypt_acc D p0 c0 h

/-- What the first blocks of the input give does not depend on the blocks after them. -/
theorem encOut_take (E : Block → Block) (c p : Block) (xs : List Block) (k : Nat) :
    encOut E c p (xs.take k) = (encOut E c p xs).take k := by
  induction k generalizing c p xs with
  | zero => rfl
  | succ k ih =>
    cases xs with
    | nil => rfl
    | cons x xs => rw [List.take_succ_cons, encOut, encOut, List.take_succ_cons, ih]

theorem concatBlocks_take {bs : List Block} {k : Nat} (h : k ≤ bs.length) :
    concatBlocks (bs.take k) = (concatBlocks bs).take (16 * k) := by
  have hlen : (concatBlocks (bs.take k)).length = 16 * k := by
    rw [concatBlocks_length, List.length_take_of_le h]
  conv_rhs => rw [← List.take_append_drop k bs, concatBlocks_append, List.take_left' hlen]

/-- The last of the first `k` blocks is the block before block `k`. -/
theorem getLastD_take_blocks (start : Block) {X : Bytes} {k : Nat} (h : k ≤ X.length / 16) :
    ((blocks X).take k).getLastD start = blockBefore start X k := by
  cases k with
  | zero => rfl
  | succ k =>
    have hk : k < (blocks X).length := by rwa [blocks_length]
    rw [List.take_succ_eq_append_getElem hk, List.getLastD_concat, blocks_getElem]
    rfl

section
variable (E : Block → Block) (c0 p0 : Block) {X : Bytes} {k : Nat} (h : k ≤ X.length / 16)
include h

/-- The first `k` output blocks are what the first `k` input blocks give. -/
theorem concatBlocks_encOut_take :
    concatBlocks (encOut E c0 p0 ((blocks X).take k)) = (igeEncrypt E c0 p0 X).acc.take (16 * k) := by
  rw [encOut_take, igeEncrypt_acc, concatBlocks_take (by rwa [encOut_length, blocks_length])]

theorem concatBlocks_encOut_take_length :
    (concatBlocks (encOut E c0 p0 ((blocks X).take k))).length = 16 * k := by
  rw [concatBlocks_length, encOut_length, List.length_take_of_le (by rwa [blocks_length])]

/-- The last of the first `k` output blocks is the output block before block `k`. -/
theorem getLastD_encOut_take (start : Block) :
    (encOut E c0 p0 ((blocks X).take k)).getLastD start = blockBefore start (igeEncrypt E c0 p0 X).acc k := by
  have hk : k ≤ (igeEncrypt E c0 p0 X).acc.length / 16 := by
    rwa [igeEncrypt_acc_length, Nat.mul_div_cancel_left _ (by decide)]
  rw [← getLastD_take_blocks start hk, igeEncrypt_acc, blocks_concatBlocks, encOut_take]

end

/-- Settles O28: the folds over the first `k` blocks, decryption being the chaining of encryption. -/
theorem chainingLoopInvariant : Obligations.ChainingLoopInvariant := by
  intro F c0 p0 X k hk
  simp only [foldl_igeEncBlock, foldl_igeDecBlock, decOut_eq_encOut, igeDecrypt_acc_eq_igeEncrypt_acc, chainStart,
    List.nil_append]
  exact ⟨⟨getLastD_encOut_take F c0 p0 hk c0, getLastD_take_blocks p0 hk, concatBlocks_encOut_take F c0 p0 hk,
      concatBlocks_encOut_take_length F c0 p0 hk⟩,
    getLastD_take_blocks c0 hk, getLastD_encOut_take F p0 c0 hk p0, concatBlocks_encOut_take F p0 c0 hk,
    concatBlocks_encOut_take_length F p0 c0 hk⟩

/-- Decryption undoes encryption on whole blocks (R105). -/
theorem igeDecrypt_igeEncrypt {E D : Block → Block} (hDE : ∀ x, D (E x) = x) (c0 p0 : Block) {X : Bytes}
    (h : X.length % 16 = 0) : (igeDecrypt D c0 p0 (igeEncrypt E c0 p0 X).acc).acc = X := by
  rw [igeDecrypt_acc, igeEncrypt_acc, blocks_concatBlocks, decOut_encOut hDE, concatBlocks_blocks h]

/-- Encryption undoes decryption on whole blocks (R105). -/
theorem igeEncrypt_igeDecrypt {E D : Block → Block} (hED : ∀ y, E (D y) = y) (c0 p0 : Block) {X : Bytes}
    (h : X.length % 16 = 0) : (igeEncrypt E c0 p0 (igeDecrypt D c0 p0 X).acc).acc = X := by
  rw [igeEncrypt_acc, igeDecrypt_acc, blocks_concatBlocks, encOut_decOut hED, concatBlocks_blocks h]

theorem blockBefore_congr (start : Block) {X X' : Bytes} {i : Nat} (h : ∀ j, j < i → blockAt X' j = blockAt X j) :
    blockBefore start X' i = blockBefore start X i := by
  unfold blockBefore
  split
  · rfl
  · exact h _ (by omega)

/-- A change at block `i` of the ciphertext does not reach the plaintext before it (R107 (a)). -/
theorem blockAt_igeDecrypt_acc_congr (D : Block → Block) (c0 p0 : Block) {X X' : Bytes} {i : Nat}
    (hlen : X'.length = X.length) (hi : i ≤ X.length / 16) (h : ∀ j, j < i → blockAt X' j = blockAt X j) (j : Nat)
    (hj : j < i) : blockAt (igeDecrypt D c0 p0 X').acc j = blockAt (igeDecrypt D c0 p0 X).acc j := by
  induction j using Nat.strong_induction_on with
  | h j ih =>
    have hin : j < X.length / 16 := hj.trans_le hi
    rw [blockAt_igeDecrypt_acc D c0 p0 hin, blockAt_igeDecrypt_acc D c0 p0 (hlen ▸ hin), h j hj,
      blockBefore_congr p0 fun l hl => ih l hl (hl.trans hj), blockBefore_congr c0 fun l hl => h l (hl.trans hj)]

theorem xorBlock_left_injective (b : Block) : Function.Injective (xorBlock · b) :=
  Function.LeftInverse.injective (g := (xorBlock · b)) fun a => xorBlock_cancel a b

theorem aesDec_injective (k : Key) : Function.Injective (aesDec k) :=
  Function.LeftInverse.injective (aesEnc_aesDec k)

/-- With the blocks before it unchanged, a plaintext block tells the ciphertext block (R107 (b)). -/
theorem blockAt_eq_of_igeDecrypt_acc {D : Block → Block} (hD : Function.Injective D) (c0 p0 : Block)
    {X X' : Bytes} {i : Nat} (hlen : X'.length = X.length) (hi : i < X.length / 16)
    (h : ∀ j, j < i → blockAt X' j = blockAt X j)
    (heq : blockAt (igeDecrypt D c0 p0 X').acc i = blockAt (igeDecrypt D c0 p0 X).acc i) :
    blockAt X' i = blockAt X i := by
  rw [blockAt_igeDecrypt_acc D c0 p0 hi, blockAt_igeDecrypt_acc D c0 p0 (hlen ▸ hi), blockBefore_congr c0 h,
    blockBefore_congr p0 (blockAt_igeDecrypt_acc_congr D c0 p0 hlen hi.le h)] at heq
  exact xorBlock_left_injective _ (hD (xorBlock_left_injective _ heq))

/-- The plaintext `IGE_ENC` encrypts: the input sequence padded to whole blocks (R97). -/
def State.igePadded (s : State) : Bytes := s.padded (igePadLen s.operands.inlen)

theorem igePadded_length (s : State) : s.igePadded.length = 16 * ((s.operands.inlen + 15) / 16) := by
  rw [State.igePadded, padded_length, igePadLen_add]

theorem igePadded_length_div (s : State) : s.igePadded.length / 16 = (s.operands.inlen + 15) / 16 := by
  rw [igePadded_length, Nat.mul_div_cancel_left _ (by decide)]

theorem igePadded_length_mod (s : State) : s.igePadded.length % 16 = 0 := by
  rw [igePadded_length, Nat.mul_mod_right]

/-- An aligned input is encrypted as it is (R97). -/
theorem igePadded_of_aligned {s : State} (h : s.operands.inlen % 16 = 0) : s.igePadded = s.operands.inputSeq := by
  simp [State.igePadded, State.padded, State.draw, igePadLen, h]

theorem igePadded_take (s : State) : s.igePadded.take s.operands.inlen = s.operands.inputSeq :=
  List.take_left' (inputSeq_length _)

/-- Settles O20: the padded plaintext has `INLEN` bytes of input and the drawn bytes after them. -/
theorem igePaddingLayout : Obligations.IgePaddingLayout := by
  refine fun s => ⟨igePadded_length s, igePadded_of_aligned, fun j hj => padded_getElem?_left s _ hj,
    fun k hk => padded_getElem?_right s ?_⟩
  rwa [padded_length, Nat.add_lt_add_iff_left] at hk

/-- The result of `IGE_ENC` (R100). -/
def State.igeCiphertext (s : State) : Bytes :=
  (igeEncrypt (aesEnc s.operands.keyK) s.operands.ivCipher0 s.operands.ivPlain0 s.igePadded).acc

/-- The result of `IGE_DEC` on an aligned input (R104). -/
def State.igePlaintext (s : State) : Bytes :=
  (igeDecrypt (aesDec s.operands.keyK) s.operands.ivCipher0 s.operands.ivPlain0 s.operands.inputSeq).acc

theorem igeCiphertext_length (s : State) : s.igeCiphertext.length = 16 * ((s.operands.inlen + 15) / 16) := by
  rw [State.igeCiphertext, igeEncrypt_acc_length, igePadded_length_div]

theorem igePlaintext_length {s : State} (h : s.operands.inlen % 16 = 0) :
    s.igePlaintext.length = s.operands.inlen := by
  rw [State.igePlaintext, igeDecrypt_acc_length, inputSeq_length, Nat.mul_div_cancel' (Nat.dvd_of_mod_eq_zero h)]

/-- `IGE_ENC` always completes with its result (R96). -/
theorem exec_igeEnc (s : State) : ∃ t, exec .igeEnc s = .next t ∧ t.status = .success ∧ t.operands = .zero ∧
    t.out = s.igeCiphertext ∧ SurroundingsKept s t :=
  ⟨_, rfl, rfl, rfl, rfl, by simp, by simp⟩

/-- R102: an unaligned length is rejected. -/
theorem exec_igeDec_of_unaligned {s : State} (h : s.operands.inlen % 16 ≠ 0) :
    exec .igeDec s = .next (s.fail .malformedBlockLength) := if_pos h

/-- `IGE_DEC` completes with its result on an aligned length, and draws nothing (R101). -/
theorem exec_igeDec_of_aligned {s : State} (h : s.operands.inlen % 16 = 0) :
    ∃ t, exec .igeDec s = .next t ∧ t.status = .success ∧ t.operands = .zero ∧ t.out = s.igePlaintext ∧
      (∀ k, t.rngByte k = s.rngByte k) ∧ SurroundingsKept s t :=
  ⟨_, if_neg (not_not.mpr h), rfl, rfl, rfl, rngByte_congr rfl rfl, rfl, rfl⟩

/-- Settles O23: the length check comes before anything else. -/
theorem igeDecRejectsUnaligned : Obligations.IgeDecRejectsUnaligned := by
  refine fun s => ⟨fun h => ?_, fun h => ?_⟩
  · exact ⟨_, exec_igeDec_of_unaligned h, rfl, rfl, rfl, fail_portsUntouched s _, fail_surroundingsKept s _⟩
  · obtain ⟨t, ht, hst, -⟩ := exec_igeDec_of_aligned h
    exact ⟨t, ht, by rw [hst]; rfl⟩

/-- Settles O21: the output is the chaining of the padded plaintext. -/
theorem igeEncCompletes : Obligations.IgeEncCompletes := by
  intro s o X
  obtain ⟨t, ht, hst, hz, hout, hkept⟩ := exec_igeEnc s
  refine ⟨t, ht, by rw [hst]; rfl, hz, hout ▸ igeCiphertext_length s, fun i hi => ?_, hkept⟩
  rw [hout]
  exact blockAt_igeEncrypt_acc _ _ _ (igePadded_length_div s ▸ hi)

/-- Settles O22: the output is the chaining of the input sequence. -/
theorem igeDecCompletes : Obligations.IgeDecCompletes := by
  intro s o hal
  obtain ⟨t, ht, hst, hz, hout, hrng, hkept⟩ := exec_igeDec_of_aligned hal
  refine ⟨t, ht, by rw [hst]; rfl, hz, hout ▸ igePlaintext_length hal, fun i hi => ?_, hrng, hkept⟩
  rw [hout]
  exact blockAt_igeDecrypt_acc _ _ _ (by rwa [inputSeq_length])

/-- Settles O24: the loaded ciphertext is aligned, and the port's inverse undoes each block. -/
theorem igeRoundTrip : Obligations.IgeRoundTrip := by
  intro s o
  obtain ⟨t, ht, -, -, hout, -⟩ := exec_igeEnc s
  refine ⟨t, ht, hout ▸ igeCiphertext_length s, fun u hin hK hC hP => ?_⟩
  have hlen : u.operands.inlen = 16 * ((s.operands.inlen + 15) / 16) := by
    rw [← inputSeq_length, hin, hout, igeCiphertext_length]
  obtain ⟨w, hw, hst, -, hplain, -⟩ := exec_igeDec_of_aligned (by rw [hlen, Nat.mul_mod_right])
  have hplain : w.out = s.igePadded := by
    rw [hplain, State.igePlaintext, hin, hK, hC, hP, hout]
    exact igeDecrypt_igeEncrypt (aesDec_aesEnc _) _ _ (igePadded_length_mod s)
  exact ⟨w, hw, by rw [hst]; rfl, hplain, by rw [hplain, igePadded_take],
    fun hal => by rw [hplain, igePadded_of_aligned hal]⟩

/-- Settles O25: the loaded plaintext is aligned, so nothing is padded, and the port undoes its inverse on each
block. -/
theorem igeConverseRoundTrip : Obligations.IgeConverseRoundTrip := by
  intro s o hal
  obtain ⟨t, ht, -, -, hout, -⟩ := exec_igeDec_of_aligned hal
  refine ⟨t, ht, fun u hin hK hC hP => ?_⟩
  obtain ⟨w, hw, -, -, hcipher, -⟩ := exec_igeEnc u
  have hlen : u.operands.inlen = s.operands.inlen := by
    rw [← inputSeq_length, hin, hout, igePlaintext_length hal]
  refine ⟨w, hw, ?_⟩
  rw [hcipher, State.igeCiphertext, igePadded_of_aligned (hlen ▸ hal), hin, hK, hC, hP, hout]
  exact igeEncrypt_igeDecrypt (aesEnc_aesDec _) _ _ (by rwa [inputSeq_length])

/-- Settles O26: both ciphertexts are aligned and agree before block `i`. -/
theorem igeErrorLocality : Obligations.IgeErrorLocality := by
  intro s s' i hal hinlen hK hC hP hi hsame hdiff
  obtain ⟨t, ht, -, -, hout, -⟩ := exec_igeDec_of_aligned hal
  obtain ⟨t', ht', -, -, hout', -⟩ := exec_igeDec_of_aligned (s := s') (hinlen ▸ hal)
  have hlen : s'.operands.inputSeq.length = s.operands.inputSeq.length := by
    rw [inputSeq_length, inputSeq_length, hinlen]
  have hi : i < s.operands.inputSeq.length / 16 := by rwa [inputSeq_length]
  have hbefore : ∀ j, j < i → blockAt s'.operands.inputSeq j = blockAt s.operands.inputSeq j :=
    fun j hj => hsame j hj.ne
  refine ⟨t, t', ht, ht', ?_, ?_⟩ <;> rw [hout, hout', State.igePlaintext, State.igePlaintext, hK, hC, hP]
  · exact blockAt_igeDecrypt_acc_congr _ _ _ hlen hi.le hbefore
  · exact fun heq => hdiff (blockAt_eq_of_igeDecrypt_acc (aesDec_injective _) _ _ hlen hi hbefore heq)

/-- Exclusive-or with sixteen zero bytes changes nothing (R120). -/
theorem xorBlock_zero {z : Block} (h : z.val = List.replicate 16 0) (a : Block) : xorBlock a z = a := by
  apply Subtype.ext
  rw [xorBlock_val, h]
  refine List.ext_getElem (by simp [a.property]) fun j _ _ => ?_
  rw [List.getElem_zipWith, List.getElem_replicate]
  exact BitVec.xor_zero

theorem memSeq_eq_replicate_zero {m : Memory} {i n : Nat} (h : ∀ j, j < n → memRead m (i + j) = 0) :
    memSeq m i n = List.replicate n 0 := by
  refine List.eq_replicate_iff.mpr ⟨memSeq_length m i n, fun b hb => ?_⟩
  obtain ⟨j, hj, rfl⟩ := List.mem_map.mp hb
  exact h j (List.mem_range.mp hj)

/-- Settles O27: both halves of the IV are zero blocks, and the first block is chained with them. -/
theorem zeroIvFirstBlock : Obligations.ZeroIvFirstBlock := by
  intro s o hpos hiv
  obtain ⟨t, ht, -, -, hout, -⟩ := exec_igeEnc s
  have hC : o.ivCipher0.val = List.replicate 16 0 := memSeq_eq_replicate_zero fun j hj => hiv _ (by omega)
  have hP : o.ivPlain0.val = List.replicate 16 0 := memSeq_eq_replicate_zero fun j hj => hiv _ (by omega)
  have hblock : 0 < s.igePadded.length / 16 := by
    rw [igePadded_length_div]
    exact Nat.div_pos (Nat.add_le_add_right hpos 15) (by decide)
  refine ⟨t, ht, ?_⟩
  calc blockAt t.out 0
      = xorBlock (aesEnc o.keyK (xorBlock (blockAt s.igePadded 0) o.ivCipher0)) o.ivPlain0 :=
        hout ▸ blockAt_igeEncrypt_acc _ _ _ hblock
    _ = aesEnc o.keyK (blockAt s.igePadded 0) := by rw [xorBlock_zero hC, xorBlock_zero hP]

end Sys2Proof.Machine

/-! The codec (42_codec.md R115 to R120): the value of a byte sequence, its encodings and their lengths, the output
format, and the blocks with their exclusive-or. -/

namespace Sys2Proof.Machine

/-- The sum of R115, by its first term. -/
theorem be2int_eq_sum (B : Bytes) :
    be2int B = ∑ j ∈ Finset.range B.length, (B.getD j 0).toNat * 256 ^ (B.length - 1 - j) := by
  induction B with
  | nil => rfl
  | cons b B ih =>
    rw [be2int_cons, ih, List.length_cons, Finset.sum_range_succ', add_comm]
    simp [Nat.sub_sub, Nat.add_comm]

/-- Settles O14: the recursion reads the sequence from its end, the sum and the leading zero from its front. -/
theorem bigEndianValue : Obligations.BigEndianValue :=
  fun B => ⟨be2int_eq_sum B, ⟨be2int_nil, be2int_snoc B⟩, be2int_lt B, be2int_replicate_zero_append 1 B⟩

/-- Among the sequences of one length the value determines the bytes: the last byte is the remainder by 256 (R116). -/
theorem eq_of_be2int_eq {A B : Bytes} (hlen : A.length = B.length) (hval : be2int A = be2int B) : A = B := by
  induction A using List.reverseRecOn generalizing B with
  | nil => exact (List.length_eq_zero_iff.mp hlen.symm).symm
  | append_singleton A a ih =>
    obtain rfl | ⟨B, b, rfl⟩ := List.eq_nil_or_concat' B
    · simp at hlen
    · rw [be2int_snoc, be2int_snoc] at hval
      have ha := a.isLt
      have hb := b.isLt
      have hlast : a = b := BitVec.eq_of_toNat_eq (by omega)
      have hinit : A = B := ih (by simpa using hlen) (by omega)
      rw [hlast, hinit]

theorem int2be_getElem? (c : Nat) {k j : Nat} (h : j < k) :
    (int2be c k)[j]? = some (BitVec.ofNat 8 (c / 256 ^ (k - 1 - j))) := by
  simp [int2be, h]

/-- The bit length is the least number of bits that holds the number (R116). -/
theorem bitlen_le_iff (c n : Nat) : bitlen c ≤ n ↔ c < 2 ^ n := by
  unfold bitlen
  split
  · next h => simp [h]
  · next h => exact Nat.log2_lt h

theorem bitlen_pos {c : Nat} (h : 0 < c) : 0 < bitlen c := by
  rw [← Nat.not_le, bitlen_le_iff]
  omega

theorem two_pow_bitlen_sub_one_le {c : Nat} (h : 0 < c) : 2 ^ (bitlen c - 1) ≤ c := by
  have hpos := bitlen_pos h
  rw [← Nat.not_lt, ← bitlen_le_iff]
  omega

/-- Settles O15: a sequence of length `k` and the encoding of its value have one length and one value. -/
theorem fixedWidthEncodingIsUnique : Obligations.FixedWidthEncodingIsUnique := by
  refine ⟨fun C k hC => ?_, rfl, fun C hC => ⟨two_pow_bitlen_sub_one_le hC, lt_two_pow_bitlen C⟩⟩
  have hval : be2int (int2be C k) = C := by rw [be2int_int2be_mod, Nat.mod_eq_of_lt hC]
  refine ⟨int2be_length C k, hval, fun j hj => ?_, fun B hlen hB => ?_⟩
  · rw [int2be_getElem? C hj]
    exact congrArg some (BitVec.eq_of_toNat_eq (by simp))
  · exact eq_of_be2int_eq (by rw [hlen, int2be_length]) (by rw [hB, hval])

/-- The number of bytes a number needs, by its bit length. -/
theorem lt_256_pow_iff (c n : Nat) : c < 256 ^ n ↔ bitlen c ≤ 8 * n := by
  rw [bitlen_le_iff, pow_mul]
  norm_num

/-- The last bytes of an encoding are the shorter encoding. -/
theorem lastBytes_int2be (c : Nat) {n k : Nat} (h : n ≤ k) : lastBytes (int2be c k) n = int2be c n := by
  have hn : n ≤ (int2be c k).length := by rwa [int2be_length]
  apply eq_of_be2int_eq
  · rw [lastBytes, List.length_drop, Nat.sub_sub_self hn, int2be_length]
  · rw [be2int_lastBytes _ hn, be2int_int2be_mod, be2int_int2be_mod, Nat.mod_mod_of_dvd _ (pow_dvd_pow 256 h)]

theorem fmt256_int2be (c k : Nat) : fmt256 (int2be c k) = int2be c (min k 256) := by
  rw [fmt256, int2be_length]
  split
  · next h => rw [lastBytes_int2be c h.le, Nat.min_eq_right h.le]
  · next h => rw [Nat.min_eq_left (Nat.le_of_not_lt h)]

/-- Encodings of one number differ exactly in their lengths. -/
theorem int2be_inj (c : Nat) {j k : Nat} : int2be c j = int2be c k ↔ j = k :=
  ⟨fun h => by simpa using congrArg List.length h, congrArg (int2be c)⟩

/-- The first byte of a canonical encoding is all that stands above the others (R117). -/
theorem canon_head? (m : Canon) (c : Nat) :
    (canon m c).head? = some (BitVec.ofNat 8 (c / 256 ^ (canonLen m c - 1))) := by
  rw [List.head?_eq_getElem?, canon, int2be_getElem? c (canonLen_pos m c), Nat.sub_zero]

theorem canon_head_toNat {m : Canon} {c : Nat} {b : Byte} (h : (canon m c).head? = some b) :
    b.toNat = c / 256 ^ (canonLen m c - 1) := by
  have hlt : c < 256 ^ (canonLen m c - 1) * 256 := by
    rw [← pow_succ, Nat.sub_add_cancel (canonLen_pos m c), lt_256_pow_iff]
    exact bitlen_le_canonLen m c
  rw [canon_head?, Option.some_inj] at h
  rw [← h, BitVec.toNat_ofNat, Nat.mod_eq_of_lt (Nat.div_lt_of_lt_mul hlt)]

/-- A canonical encoding starts with `00` exactly when one byte less would do (R117). -/
theorem canon_head?_eq_zero_iff (m : Canon) (c : Nat) :
    (canon m c).head? = some 0 ↔ bitlen c ≤ 8 * (canonLen m c - 1) := by
  obtain ⟨b, hb⟩ : ∃ b, (canon m c).head? = some b := ⟨_, canon_head? m c⟩
  rw [hb, Option.some_inj, ← BitVec.toNat_inj, canon_head_toNat hb, ← lt_256_pow_iff]
  exact Nat.div_eq_zero_iff_lt (Nat.pow_pos (by decide))

/-- Under `SIGN_BYTE` the top bit of the first byte is clear (R117). -/
theorem canon_signByte_head_lt {c : Nat} {b : Byte} (h : (canon .signByte c).head? = some b) : b.toNat < 0x80 := by
  have hlt : c < 256 ^ (bitlen c / 8) * 2 ^ 7 := by
    have hbits : c < 2 ^ (8 * (bitlen c / 8) + 7) := (bitlen_le_iff _ _).mp (by omega)
    rwa [pow_add, pow_mul] at hbits
  rw [canon_head_toNat h]
  exact Nat.div_lt_of_lt_mul hlt

/-- Settles O16: the readings encode one number in lengths of their own, and the first byte is 00 exactly when one
byte less would do. -/
theorem canonicalEncodings : Obligations.CanonicalEncodings := by
  refine fun C => ⟨fun m => ⟨be2int_canon m C, ?_⟩, canon_length _ C, canon_length _ C, fun hC => ?_,
    fun b => canon_signByte_head_lt, fun _ => ?_, ?_⟩
  · cases m <;> rfl
  · have hpos := bitlen_pos hC
    rw [Ne, canon_head?_eq_zero_iff, canonLen]
    omega
  · rw [canon_head?_eq_zero_iff, canonLen]
    omega
  · rw [canon, canon, fmt256_int2be, fmt256_int2be, Ne, int2be_inj, canonLen, canonLen]
    omega

theorem fmt256_of_length_le {R : Bytes} (h : R.length ≤ 256) : fmt256 R = R := if_neg (Nat.not_lt.mpr h)

theorem fmt256_suffix (R : Bytes) : fmt256 R <:+ R := by
  unfold fmt256
  split
  · exact List.drop_suffix _ R
  · exact List.suffix_refl R

/-- Settles O17: length, suffix, identity up to 256 bytes, and value of the output format. -/
theorem outputFormatting : Obligations.OutputFormatting :=
  fun R => ⟨fmt256_length R, fmt256_suffix R, fmt256_of_length_le, be2int_fmt256 R⟩

theorem blockAt_val_getElem? (X : Bytes) {i j : Nat} (hj : j < 16) (h : 16 * i + j < X.length) :
    (blockAt X i).val[j]? = X[16 * i + j]? := by
  simp [blockAt_val_eq, hj, h]

/-- Settles O18: the two directions of the inverse, and the place of a byte in its block. -/
theorem blockView : Obligations.BlockView := by
  refine ⟨blocks_concatBlocks, fun X hX => ⟨blocks_length X, concatBlocks_blocks hX, fun i j hi hj => ?_⟩⟩
  have hlen : i < (blocks X).length := by rwa [blocks_length]
  rw [List.getElem?_eq_getElem hlen, blocks_getElem, Option.bind_some]
  exact blockAt_val_getElem? X hj (by omega)

/-- Two blocks with the same sixteen bytes are one block. -/
theorem block_eq_of_getD {a b : Block} (h : ∀ j, j < 16 → a.val.getD j 0 = b.val.getD j 0) : a = b := by
  refine Subtype.ext (List.ext_getElem (by rw [a.property, b.property]) fun j ha hb => ?_)
  have := h j (a.property ▸ ha)
  rwa [List.getD_eq_getElem _ _ ha, List.getD_eq_getElem _ _ hb] at this

/-- Exclusive-or is bytewise (R120). -/
theorem xorBlock_getD (a b : Block) {j : Nat} (h : j < 16) :
    (xorBlock a b).val.getD j 0 = a.val.getD j 0 ^^^ b.val.getD j 0 := by
  simp [a.property, b.property, h]

theorem xorBlock_comm (a b : Block) : xorBlock a b = xorBlock b a :=
  block_eq_of_getD fun j hj => by rw [xorBlock_getD a b hj, xorBlock_getD b a hj, BitVec.xor_comm]

theorem xorBlock_assoc (a b c : Block) : xorBlock (xorBlock a b) c = xorBlock a (xorBlock b c) :=
  block_eq_of_getD fun j hj => by simp only [xorBlock_getD _ _ hj, BitVec.xor_assoc]

theorem xorBlock_self_getElem? (a : Block) {j : Nat} (h : j < 16) : (xorBlock a a).val[j]? = some 0 := by
  have hj : j < (xorBlock a a).val.length := by rwa [(xorBlock a a).property]
  rw [List.getElem?_eq_getElem hj, ← List.getD_eq_getElem _ 0 hj, xorBlock_getD a a h, BitVec.xor_self]
  rfl

/-- Settles O19: each law is the law of one byte, at every byte. -/
theorem blockXorLaws : Obligations.BlockXorLaws :=
  fun a b c => ⟨fun _ => xorBlock_getD a b, xorBlock_comm a b, xorBlock_assoc a b c,
    fun _ => xorBlock_self_getElem? a, xorBlock_cancel a b⟩

end Sys2Proof.Machine

/-! How commands end (60_exceptions.md R123 to R127), and the model's record of errors (R135). -/

namespace Sys2Proof.Machine

/-- The status word of an error: `DONE`, `ERR` and the error's code (R64, R126). -/
theorem statusWord_failed_toNat (e : CmdError) : (statusWord (.failed e)).toNat = 3 + 16 * errorCode e := by
  cases e <;> rfl

/-- Settles O33: a completion with `ERR` set is `State.fail`. -/
theorem errorsArePrecise : Obligations.ErrorsArePrecise := by
  intro v s t ht herr
  rcases issueCommand_completes v s with ⟨e, he⟩ | ⟨n, rs, B, hB⟩
  · cases he.symm.trans ht
    exact ⟨⟨e, rfl, statusWord_failed_toNat e⟩, rfl, rfl, fail_portsUntouched s e, fail_surroundingsKept s e⟩
  · cases hB.symm.trans ht
    cases herr

/-- The status a code ends with: the checks in the order of R125, with the errors of R123. -/
def commandStatus (v : Byte) (o : Operands) : Status :=
  if v = 0x01 then
    if o.inlen = 0 ∨ 255 < o.inlen then .failed .invalidInput
    else if o.modulusN = 0 then .failed .invalidKey
    else .success
  else if v = 0x02 then .success
  else if v = 0x03 then
    if o.inlen % 16 ≠ 0 then .failed .malformedBlockLength else .success
  else .failed .illegalCommand

/-- A command completes with the status its checks give. -/
theorem exec_next_status (i : Instr) (s : State) :
    ∃ t, exec i s = .next t ∧ t.status = commandStatus (encode i) s.operands := by
  cases i with
  | rsaEnc =>
    rcases execRsaEnc_cases s with ⟨hlen, h⟩ | ⟨hpos, hle, hN, h⟩ | ⟨hpos, hle, hN, h⟩
    · exact ⟨_, h, by simp [commandStatus, encode, hlen]⟩
    · exact ⟨_, h, by simp [commandStatus, encode, hN, hle.not_gt, Nat.ne_of_gt hpos]⟩
    · exact ⟨_, h, by simp [commandStatus, encode, hN, hle.not_gt, Nat.ne_of_gt hpos]⟩
  | igeEnc => exact ⟨_, rfl, rfl⟩
  | igeDec =>
    rcases execIgeDec_cases s with ⟨hal, h⟩ | ⟨hal, h⟩
    · exact ⟨_, h, by simp [commandStatus, encode, hal]⟩
    · exact ⟨_, h, by simp [commandStatus, encode, hal]⟩

/-- An issued code completes with the status its checks give. -/
theorem issueCommand_next_status (v : Byte) (s : State) :
    ∃ t, issueCommand exec v s = .next t ∧ t.status = commandStatus v s.operands := by
  rcases issueCommand_cases v s with ⟨i, rfl, h⟩ | ⟨h1, h2, h3, h⟩
  · rw [h]
    exact exec_next_status i s
  · exact ⟨_, h, by rw [commandStatus, if_neg h1, if_neg h2, if_neg h3, State.fail_status]⟩

/-- A word is the status word of one status only. -/
theorem statusWord_inj {st st' : Status} : statusWord st = statusWord st' ↔ st = st' :=
  ⟨fun h => Option.some.inj (by rw [← statusOfWord_statusWord st, h, statusOfWord_statusWord]), fun h => h ▸ rfl⟩

section
variable (v : Byte) (o : Operands)

theorem commandStatus_eq_illegalCommand_iff :
    commandStatus v o = .failed .illegalCommand ↔ v ≠ 0x01 ∧ v ≠ 0x02 ∧ v ≠ 0x03 := by
  unfold commandStatus
  split_ifs <;> simp_all

theorem commandStatus_eq_invalidInput_iff :
    commandStatus v o = .failed .invalidInput ↔ v = 0x01 ∧ (o.inlen = 0 ∨ 255 < o.inlen) := by
  unfold commandStatus
  split_ifs <;> simp_all

theorem commandStatus_eq_invalidKey_iff : commandStatus v o = .failed .invalidKey ↔
    v = 0x01 ∧ 1 ≤ o.inlen ∧ o.inlen ≤ 255 ∧ o.modulusN = 0 := by
  unfold commandStatus
  split_ifs <;> simp_all <;> omega

theorem commandStatus_eq_malformedBlockLength_iff :
    commandStatus v o = .failed .malformedBlockLength ↔ v = 0x03 ∧ o.inlen % 16 ≠ 0 := by
  unfold commandStatus
  split_ifs <;> simp_all

theorem commandStatus_eq_success_iff : commandStatus v o = .success ↔
    v = 0x01 ∧ 1 ≤ o.inlen ∧ o.inlen ≤ 255 ∧ o.modulusN ≠ 0 ∨ v = 0x02 ∨ v = 0x03 ∧ o.inlen % 16 = 0 := by
  unfold commandStatus
  split_ifs <;> simp_all <;> omega

end

/-- Settles O32: the status is that of the checks, and an error completion is precise. -/
theorem eachErrorHasItsCause : Obligations.EachErrorHasItsCause := by
  intro v s o
  obtain ⟨t, ht, hst⟩ := issueCommand_next_status v s
  have hword (st : Status) : statusWord t.status = statusWord st ↔ commandStatus v o = st := hst ▸ statusWord_inj
  refine ⟨t, ht, (hword _).trans (commandStatus_eq_illegalCommand_iff v o),
    (hword _).trans (commandStatus_eq_invalidInput_iff v o), (hword _).trans (commandStatus_eq_invalidKey_iff v o),
    (hword _).trans (commandStatus_eq_malformedBlockLength_iff v o),
    (hword _).trans (commandStatus_eq_success_iff v o), fun herr => ?_⟩
  obtain ⟨-, -, hout, hports, -⟩ := errorsArePrecise v s t ht herr
  exact ⟨hports, hout⟩

/-- What a completion does to the record of errors (R135): an error is appended, a success leaves it. -/
structure ErrorNoted (s t : State) : Prop where
  failed : ∀ e, t.status = .failed e → t.errors = s.errors ++ [e]
  succeeded : statusErr t.status = false → t.errors = s.errors

theorem fail_errorNoted (s : State) (e : CmdError) : ErrorNoted s (s.fail e) where
  failed _ h := by cases h; rfl
  succeeded h := nomatch h

theorem succeed_errorNoted (s : State) (n : Nat) (rs : List PortRequest) (B : Bytes) :
    ErrorNoted s (((s.afterPad n).withRequests rs).succeed B) where
  failed _ h := nomatch h
  succeeded _ := by simp

theorem issueCommand_errorNoted {v : Byte} {s t : State} (ht : issueCommand exec v s = .next t) :
    ErrorNoted s t := by
  rcases issueCommand_completes v s with ⟨e, he⟩ | ⟨n, rs, B, hB⟩
  · cases he.symm.trans ht
    exact fail_errorNoted s e
  · cases hB.symm.trans ht
    exact succeed_errorNoted s n rs B

/-- An access that issues a command does to the record what the command's completion does. -/
theorem AccessDone.errorNoted {s t : State} {e : Event} (hd : AccessDone s e t) (hi : e.issues = true) :
    ErrorNoted s t := by
  cases hd with
  | failed v hv err he => exact fail_errorNoted s err
  | succeeded v hv n rs B he => exact succeed_errorNoted s n rs B
  | readOnly r v hr => rcases hr with rfl | ⟨rfl, -⟩ <;> cases hi
  | write | read | inlen | modlen | explen | readReg | reset => cases hi

/-- Every other access, `RESET` among them, leaves the record (log entry 19). -/
theorem AccessDone.errors_eq_of_not_issues {s t : State} {e : Event} (hd : AccessDone s e t)
    (hi : e.issues = false) : t.errors = s.errors := by
  cases hd with
  | write | read | inlen | modlen | explen | readOnly | readReg | reset => rfl
  | failed | succeeded => cases hi

/-- The error just noted is the latest. -/
theorem ErrorNoted.errorRecorded {s t : State} (h : ErrorNoted s t) : t.errorRecorded := fun e he => by
  rw [h.failed e he, List.getLast?_concat]

/-- A record is free of errors after a completion exactly if it was before and no error was noted. -/
theorem ErrorNoted.errorFree_iff {s t : State} (h : ErrorNoted s t) :
    t.errorFree = true ↔ s.errorFree = true ∧ statusErr t.status = false := by
  cases hst : t.status with
  | afterReset | success => simp [State.errorFree, h.succeeded (by rw [hst]; rfl), statusErr]
  | failed e => simp [State.errorFree, h.failed e hst, statusErr]

/-- An access keeps `STATUS` and the record, clears the error shown (`RESET`), or completes a command. -/
theorem AccessDone.keeps_errorRecorded {s t : State} {e : Event} (hd : AccessDone s e t)
    (h : s.errorRecorded) : t.errorRecorded := by
  cases hd with
  | write | read | inlen | modlen | explen | readOnly | readReg => exact h
  | reset => exact fun _ he => nomatch he
  | failed v hv err he => exact (fail_errorNoted s err).errorRecorded
  | succeeded v hv n rs B he => exact (succeed_errorNoted s n rs B).errorRecorded

/-- Settles O54: an idle step changes nothing, and every access keeps it. -/
theorem stepKeepsErrorRecorded : Obligations.StepKeepsErrorRecorded := by
  intro s t h ht
  rcases step_next ht with ⟨-, rfl⟩ | ⟨e, rest, -, hd⟩
  · exact h
  · exact hd.keeps_errorRecorded (s := s.withPending rest) h

/-- Settles O56: a completion notes its error, every other access leaves the record. -/
theorem errorRecordGrowsOnErrorsOnly : Obligations.ErrorRecordGrowsOnErrorsOnly := by
  refine ⟨fun v s t ht => ?_, fun s t ht => ⟨fun e rest hp hi => ?_, fun hi => ?_⟩⟩
  · have hn := issueCommand_errorNoted ht
    exact ⟨hn.failed, hn.succeeded, hn.errorFree_iff⟩
  · have hn := (accessDone_of_step ht hp).errorNoted hi
    exact ⟨hn.failed, hn.succeeded⟩
  · rcases step_next ht with ⟨-, rfl⟩ | ⟨e, rest, hp, hd⟩
    · rfl
    · exact hd.errors_eq_of_not_issues (hi e rest hp)

end Sys2Proof.Machine

/-! Reset beside completion (70_reset_and_hazards.md R141, R142): both leave the operands cleared, and `RESET` does
not touch the random source. -/

namespace Sys2Proof.Machine

/-- Where the operands are cleared, a command completes as it does after `RESET`. -/
theorem issueCommand_platformReset_completesAlike {s : State} (h : s.operands = .zero) (v : Byte) :
    CompletesAlike (issueCommand exec v s) (issueCommand exec v s.platformReset) s s.platformReset :=
  issueCommand_completesAlike (s := s) (s' := s.platformReset) h (fun _ => rfl) v

/-- States that complete alike end with the same `STATUS`, and a success ends with the same `OUT` whatever `OUT` was. -/
theorem CompletesAlike.status_eq_and_out_eq_of_success {r r' : StepOutcome} {s s' : State}
    (h : CompletesAlike r r' s s') :
    ∃ t t', r = .next t ∧ r' = .next t' ∧ t.status = t'.status ∧
      (statusErr t.status = false → t.out = t'.out) := by
  rcases h with ⟨e, h, h'⟩ | ⟨n, rs, B, h, h'⟩
  · exact ⟨_, _, h, h', rfl, fun hok => nomatch hok⟩
  · exact ⟨_, _, h, h', rfl, fun _ => rfl⟩

/-- Settles O50: the first command has cleared the operands, so the second completes as after `RESET`. -/
theorem nextCommandAfterResetOrCompletion : Obligations.NextCommandAfterResetOrCompletion := by
  intro v w s t ht
  obtain ⟨t', ht', hzero⟩ := issueCommand_next_operands_zero v s
  obtain rfl : t = t' := Host.Outcome.next.inj (ht.symm.trans ht')
  exact (issueCommand_platformReset_completesAlike hzero w).status_eq_and_out_eq_of_success

/-- Settles O49: the access taken is `RESET`, which gives `STATUS`, the operands and `OUT` their reset values. -/
theorem resetEventRestoresResetState : Obligations.ResetEventRestoresResetState := by
  intro s rest hp
  have hreset : step s = .next (s.withPending rest).platformReset := AccessDone.reset.step_eq hp
  exact ⟨_, hreset, rfl, rfl, rfl, rfl, rfl, ⟨rfl, rfl, rfl⟩, rfl⟩

end Sys2Proof.Machine
